-- ==== Sys2Proof/Word.lean ====
section
/-! DEFINITION. The words of the base32 codec core: bytes, 5-bit code points, the 40-bit group
accumulator, and the three fields of a CMD8 command word. -/

namespace Sys2Proof

/-- A byte, the unit of IN, OUT, both ROMs, CMD and STATUS (20_memory.md R48; 10_state.md R18). -/
abbrev Byte := BitVec 8

/-- A code point, one 5-bit unit of the binary data (00_scope.md R12). -/
abbrev CodePoint := BitVec 5

/-- The 40-bit accumulator of one group (10_state.md R37). -/
abbrev Accumulator := BitVec 40

/-- The fields of the one command format CMD8 (30_encoding.md R56). -/
structure CmdFields where
  /-- RSV, bits [7:4]. -/
  rsv : BitVec 4
  /-- PAD, bit [3]. -/
  pad : Bool
  /-- OP, bits [2:0]. -/
  op : BitVec 3
deriving DecidableEq, Repr

end Sys2Proof
end

