-- ==== Sys2Proof/Syntax.lean ====
section
/-! DEFINITION. The six commands of the block, one constructor for each row of
spec/opcode_table.json. -/

namespace Sys2Proof

/-- A command (30_encoding.md R57, R60). `pad` is the PAD bit: true is padded mode, false is
unpadded mode (R58). A command carries no other operand (R61). -/
inductive Instr where
  /-- ENCSZ, encoded-size calculation (41_encode.md R73). -/
  | encsz (pad : Bool)
  /-- ENC, encode (41_encode.md R76). -/
  | enc (pad : Bool)
  /-- DECSZ, decoded-size calculation (42_decode.md R81). -/
  | decsz (pad : Bool)
  /-- DEC, decode (42_decode.md R87). -/
  | dec (pad : Bool)
  /-- FWD, read one forward-table entry (40_lut.md R70). -/
  | fwd
  /-- REV, read one reverse-table entry (40_lut.md R71). -/
  | rev
deriving DecidableEq, Repr

end Sys2Proof
end

