-- ==== Sys2Proof/WellFormed.lean ====
section
/-! DEFINITION. Which command words are legal, as checks on the fields of CMD8, and which
instruction terms are well formed. -/

namespace Sys2Proof

/-- "RSV must be 0" (30_encoding.md R59). -/
def CmdFields.reservedClear (f : CmdFields) : Bool := f.rsv == 0

/-- OP values 110 and 111 are reserved (30_encoding.md R57). -/
def CmdFields.opAssigned (f : CmdFields) : Bool := decide (f.op.toNat < 6)

/-- "For FWD and REV, PAD must be 0" (30_encoding.md R58). -/
def CmdFields.padAllowed (f : CmdFields) : Bool := !(f.pad && (f.op == 0b100 || f.op == 0b101))

/-- A command word is legal when all three checks hold (30_encoding.md R60). -/
def CmdFields.wellFormed (f : CmdFields) : Bool :=
  f.reservedClear && f.opAssigned && f.padAllowed

/-- Every instruction term is well formed: its only field is the PAD bit, and both values of it are
legal for the four commands that carry it (30_encoding.md R58, R60). The checks that can fail are
those on the fields of a word, above. -/
def Instr.wellFormed : Instr → Bool
  | .encsz _ => true
  | .enc _ => true
  | .decsz _ => true
  | .dec _ => true
  | .fwd => true
  | .rev => true

end Sys2Proof
end

