-- ==== Sys2Proof/Decode.lean ====
section
/-! DEFINITION. The command decoder, total on all 256 byte values (30_encoding.md R60), and the
encoder written from the same tables (R56, R57). -/

namespace Sys2Proof

/-- Why a command word is illegal (30_encoding.md R60; 95_test_vectors.md section 2.7). -/
inductive IllegalWord where
  /-- A bit of RSV is set (R59). -/
  | reservedBits
  /-- OP is 110 or 111 (R57). -/
  | reservedOp
  /-- PAD = 1 with FWD or REV (R58). -/
  | padOnTableRead
deriving DecidableEq, Repr

/-- What the decoder answers for a byte. -/
inductive Decoded where
  /-- The word is legal and stands for this command. -/
  | legal (i : Instr)
  /-- The word is illegal, with the reason. -/
  | illegal (why : IllegalWord)
deriving DecidableEq, Repr

/-- The fields of a command word: RSV = [7:4], PAD = [3], OP = [2:0] (30_encoding.md R56). -/
def fieldsOf (w : Byte) : CmdFields :=
  { rsv := w.extractLsb' 4 4, pad := w.getLsbD 3, op := w.extractLsb' 0 3 }

/-- The command word with these fields (30_encoding.md R56). -/
def wordOf (f : CmdFields) : Byte := f.rsv ++ BitVec.ofBool f.pad ++ f.op

/-- DecodeCmd on the fields, in the order of 30_encoding.md R60. -/
def decodeFields (f : CmdFields) : Decoded :=
  if f.rsv ≠ 0 then .illegal .reservedBits
  else
    match f.op with
    | 0b000 => .legal (.encsz f.pad)
    | 0b001 => .legal (.enc f.pad)
    | 0b010 => .legal (.decsz f.pad)
    | 0b011 => .legal (.dec f.pad)
    | 0b100 => if f.pad then .illegal .padOnTableRead else .legal .fwd
    | 0b101 => if f.pad then .illegal .padOnTableRead else .legal .rev
    | _ => .illegal .reservedOp

/-- DecodeCmd (30_encoding.md R60). -/
def decode (w : Byte) : Decoded := decodeFields (fieldsOf w)

/-- The fields of a command's word (30_encoding.md R56, R57). -/
def encodeFields : Instr → CmdFields
  | .encsz pad => { rsv := 0, pad := pad, op := 0b000 }
  | .enc pad => { rsv := 0, pad := pad, op := 0b001 }
  | .decsz pad => { rsv := 0, pad := pad, op := 0b010 }
  | .dec pad => { rsv := 0, pad := pad, op := 0b011 }
  | .fwd => { rsv := 0, pad := false, op := 0b100 }
  | .rev => { rsv := 0, pad := false, op := 0b101 }

/-- The word of a command (30_encoding.md R60 lists all ten). -/
def encode (i : Instr) : Byte := wordOf (encodeFields i)

/-- What the decoder reads from an instruction whose bits are `w`, numbered as
spec/opcode_table.json numbers them. Every command is one 8-bit word (30_encoding.md R62), so bits
at index 8 and above must be 0. Log entry 17. -/
def decodeTableWord (nbits w : Nat) : Option Instr :=
  if w % 2 ^ nbits < 256 then
    match decode (BitVec.ofNat 8 (w % 2 ^ nbits)) with
    | .legal i => some i
    | .illegal _ => none
  else none

/-- The command word a mnemonic assembles to (30_encoding.md R63): the suffix `.P` or none is PAD = 1,
`.NP` is PAD = 0. -/
def assemble (mnemonic : String) : Option Byte :=
  match mnemonic with
  | "ENCSZ" => some (encode (.encsz true))
  | "ENCSZ.P" => some (encode (.encsz true))
  | "ENCSZ.NP" => some (encode (.encsz false))
  | "ENC" => some (encode (.enc true))
  | "ENC.P" => some (encode (.enc true))
  | "ENC.NP" => some (encode (.enc false))
  | "DECSZ" => some (encode (.decsz true))
  | "DECSZ.P" => some (encode (.decsz true))
  | "DECSZ.NP" => some (encode (.decsz false))
  | "DEC" => some (encode (.dec true))
  | "DEC.P" => some (encode (.dec true))
  | "DEC.NP" => some (encode (.dec false))
  | "FWD" => some (encode .fwd)
  | "REV" => some (encode .rev)
  | _ => none

/-- The call surface of the source (30_encoding.md R67): a call with or without `withPadding`. -/
inductive SourceCall where
  /-- `calculateEncodedSize(length, withPadding)`. -/
  | calculateEncodedSize (withPadding : Bool)
  /-- `encode(input, output)`, whose size is the padded one. -/
  | encodeFill
  /-- `encode(input, output, withPadding)`. -/
  | encodeFillWith (withPadding : Bool)
  /-- `calculateDecodedSize(input, length, withPadding)`. -/
  | calculateDecodedSize (withPadding : Bool)
  /-- `decode(input, output)`, whose size is "computed internally via the padded path". -/
  | decodeFill
deriving DecidableEq, Repr

/-- The command a source call is (30_encoding.md R67). -/
def commandOfCall : SourceCall → Instr
  | .calculateEncodedSize withPadding => .encsz withPadding
  | .encodeFill => .enc true
  | .encodeFillWith withPadding => .enc withPadding
  | .calculateDecodedSize withPadding => .decsz withPadding
  | .decodeFill => .dec true

end Sys2Proof
end

