-- ==== Sys2Proof/Config.lean ====
section
/-! DEFINITION. What the spec leaves to an implementation: the width W_LEN of the length registers,
and the bytes it calls `any`. Both are opaque constants, so no proof can lean on a value. -/

namespace Sys2Proof

/-- How far W_LEN exceeds its least value 16 (00_scope.md R7; 92_eei_decisions.md D3: OPEN). -/
opaque Config.wLenExtra : Nat

/-- W_LEN, "a natural number with `W_LEN >= 16`" (00_scope.md R7). Log entry 1. -/
def Config.wLen : Nat := Config.wLenExtra + 16

/-- The `any` bytes of the spec, by the order in which they are drawn (60_exceptions.md R97;
30_encoding.md R64, the `?` contents of ALLOC OUT). Log entry 5. -/
opaque Config.freeByte : Nat → Byte

end Sys2Proof
end

