-- ==== Sys2Proof/Machine/Rom.lean ====
section
/-! DEFINITION. The contents of the two ROMs, the sentinel and the pad character, row by row as
10_state.md gives them. -/

namespace Sys2Proof.Machine

/-- SENTINEL, which the spec fixes at 0xFF (10_state.md R33; 92_eei_decisions.md D7). Log entry 12. -/
def sentinel : Byte := 0xFF

/-- PADCHAR, the byte `=` (10_state.md R34). -/
def padChar : Byte := 0x3D

/-- FWD[0..15], `A` to `P` (10_state.md R29). -/
def fwdRowLow : List Byte :=
  [0x41, 0x42, 0x43, 0x44, 0x45, 0x46, 0x47, 0x48, 0x49, 0x4A, 0x4B, 0x4C, 0x4D, 0x4E, 0x4F, 0x50]

/-- FWD[16..31], `Q` to `Z` and `2` to `7` (10_state.md R29). -/
def fwdRowHigh : List Byte :=
  [0x51, 0x52, 0x53, 0x54, 0x55, 0x56, 0x57, 0x58, 0x59, 0x5A, 0x32, 0x33, 0x34, 0x35, 0x36, 0x37]

/-- The forward ROM's contents (10_state.md R29). -/
def fwdImage : Vector Byte 32 := ⟨(fwdRowLow ++ fwdRowHigh).toArray, rfl⟩

/-- A row of the reverse table that holds only the sentinel `s` (10_state.md R31). -/
def revRowInvalid (s : Byte) : List Byte := [s, s, s, s, s, s, s, s, s, s, s, s, s, s, s, s]

/-- REV[0x30..0x3F] (10_state.md R31). -/
def revRow3 (s : Byte) : List Byte := [s, s, 26, 27, 28, 29, 30, 31, s, s, s, s, s, s, s, s]

/-- REV[0x40..0x4F] (10_state.md R31). -/
def revRow4 (s : Byte) : List Byte := [s, 0, 1, 2, 3, 4, 5, 6, 7, 8, 9, 10, 11, 12, 13, 14]

/-- REV[0x50..0x5F] (10_state.md R31). -/
def revRow5 (s : Byte) : List Byte := [15, 16, 17, 18, 19, 20, 21, 22, 23, 24, 25, s, s, s, s, s]

/-- REV[0x00..0x7F] (10_state.md R31). -/
def revLowHalf (s : Byte) : List Byte :=
  revRowInvalid s ++ revRowInvalid s ++ revRowInvalid s ++ revRow3 s
    ++ revRow4 s ++ revRow5 s ++ revRowInvalid s ++ revRowInvalid s

/-- REV[0x80..0xFF] (10_state.md R31). -/
def revHighHalf (s : Byte) : List Byte :=
  revRowInvalid s ++ revRowInvalid s ++ revRowInvalid s ++ revRowInvalid s
    ++ revRowInvalid s ++ revRowInvalid s ++ revRowInvalid s ++ revRowInvalid s

theorem revLowHalf_length (s : Byte) : (revLowHalf s).length = 128 := by
  simp [revLowHalf, revRowInvalid, revRow3, revRow4, revRow5]

theorem revHighHalf_length (s : Byte) : (revHighHalf s).length = 128 := by
  simp [revHighHalf, revRowInvalid]

/-- The reverse ROM's contents with the sentinel `s` (10_state.md R31, R33). -/
def revImageWith (s : Byte) : Vector Byte 256 :=
  ⟨(revLowHalf s ++ revHighHalf s).toArray, by simp [revLowHalf_length, revHighHalf_length]⟩

/-- The reverse ROM's contents (10_state.md R31). -/
def revImage : Vector Byte 256 := revImageWith sentinel

end Sys2Proof.Machine
end

