-- ==== Sys2Proof/Machine/State.lean ====
section
/-! DEFINITION. The state of the block and of the host that drives it, the reasons a step can stop,
and the state after reset. -/

namespace Sys2Proof.Machine

/-- One interface register: the value it holds and its written flag (10_state.md R25). Every register
holds a value; the flag says whether a read of it is allowed. -/
structure Reg (α : Type) where
  /-- The value held. -/
  value : α
  /-- Set by the first write since reset (10_state.md R25). -/
  written : Bool
deriving DecidableEq, Repr

/-- A byte buffer, IN or OUT: one cell for each index 0 .. length - 1, in rising order
(20_memory.md R42, R43). The indices listed are exactly those that exist. Log entry 6. -/
abbrev Memory := List Host.Cell

/-- A value in a host line: a number, or the value the host's last GET returned ("m <- GET RESULT",
30_encoding.md R65). -/
inductive HostVal where
  /-- A number written in the program. -/
  | lit (n : Nat)
  /-- The value of the last GET. -/
  | got
deriving DecidableEq, Repr

/-- One line of a host program (30_encoding.md R64; 70_reset_and_hazards.md R112). Labels are
positions in the program. -/
inductive HostLine where
  /-- `LOAD IN, <bytes>`: IN becomes these bytes. -/
  | loadIn (bytes : List Byte)
  /-- `LOAD IN, OUT[0 .. count-1]`: IN becomes the first bytes of OUT (95_test_vectors.md, P1). -/
  | loadInFromOut (count : HostVal)
  /-- `ALLOC OUT, count`: OUT becomes `count` bytes of unspecified contents. -/
  | allocOut (count : HostVal)
  /-- `result <- OUT[0 .. count-1]`: the host takes the first bytes of OUT as its result
  (30_encoding.md R65, R66). -/
  | takeOut (count : HostVal)
  /-- Supply OUT with contents the host chose (70_reset_and_hazards.md R112). -/
  | supplyOut (bytes : List Byte)
  /-- The register transaction `(W, index, value)`: SET, and ISSUE when the index is 0. -/
  | write (index : Nat) (value : HostVal)
  /-- The register transaction `(R, index, _)`: GET. -/
  | read (index : Nat)
  /-- `BNZ ERR, target`: branch if STATUS.ERR is nonzero. -/
  | bnzErr (target : Nat)
  /-- `BZ ERR, target`: branch if STATUS.ERR is zero. -/
  | bzErr (target : Nat)
  /-- Reset, between two commands (70_reset_and_hazards.md R108, R109). -/
  | reset
deriving DecidableEq, Repr

/-- The host: its program, its position in it, the value of its last GET (30_encoding.md R64), and the
bytes it took from OUT as its result (R65, R66). Log entry 7. -/
structure HostAgent where
  /-- The program the host runs. -/
  program : List HostLine
  /-- The position of the next line. -/
  position : Nat
  /-- What the last GET returned. -/
  got : Nat
  /-- The bytes last taken from OUT: the `result` of R65 and R66. -/
  taken : List Byte
deriving DecidableEq, Repr

/-- Why a run ends badly (60_exceptions.md R100). A fault writes no register and leaves no state. All
are safe: a claim about a next state says nothing where one is raised. F_ALIAS has no constructor,
since IN and OUT are two spaces here (log entry 6). -/
inductive Fault where
  /-- F_UNWRITTEN_READ. Raised by a host read or branch, or a command, that reads a register whose
  written flag is false (10_state.md R25). Safe. -/
  | unwrittenRead
  /-- F_IN_OVERRUN. Raised by ENC, DECSZ and DEC when ARG exceeds IN_LEN (20_memory.md R44). Safe. -/
  | inOverrun
  /-- F_OUT_OVERRUN. Raised by ENC and DEC when OUT_CAP exceeds OUT_LEN (20_memory.md R44). Safe. -/
  | outOverrun
  /-- F_ENC_UNDERSIZED. Raised by ENC when OUT_CAP is below the encoded size, which the source calls
  "undefined/unchecked" (41_encode.md R76). Safe. -/
  | encUndersized
  /-- The model's own. Raised by the host lines `LOAD IN, OUT[0 .. k-1]` and `result <- OUT[0 .. k-1]`
  when OUT has fewer than `k` bytes, to which the spec gives no meaning. Log entry 9. Safe. -/
  | hostCopyOverrun
deriving DecidableEq, Repr

/-- Why a command or transaction is given no meaning (60_exceptions.md R101). -/
inductive Refusal where
  /-- An instruction with no meaning yet, by its mnemonic. Raised by no arm of exec. Safe. -/
  | notModelled (mnemonic : String)
  /-- R_WIDTH. Raised by ENCSZ, ENC, DECSZ and DEC when the length arithmetic needs more than W_LEN
  bits (60_exceptions.md R101). Safe. -/
  | width
  /-- R_HOST_ACCESS. Raised by a host write to RESULT, STATUS or ERR_INFO, or a host transaction that
  names an index of 6 or more (10_state.md R26). Safe. -/
  | hostAccess
  /-- The model's own. Raised by a host write of a value wider than the register. Log entry 8.
  Safe. -/
  | valueTooWide
deriving DecidableEq, Repr

/-- Everything the spec gives the machine (10_state.md R17), the two host buffers (20_memory.md R41)
and the host (00_scope.md R14). Lengths are natural numbers below 2^W_LEN (00_scope.md R9; log
entry 2). -/
structure State where
  /-- CMD, index 0 (10_state.md R19). -/
  cmd : Reg Byte
  /-- ARG, index 1 (10_state.md R20). -/
  arg : Reg Nat
  /-- OUT_CAP, index 2 (10_state.md R21). -/
  outCap : Reg Nat
  /-- RESULT, index 3 (10_state.md R22). -/
  result : Reg Nat
  /-- STATUS, index 4 (10_state.md R23). -/
  status : Reg Byte
  /-- ERR_INFO, index 5 (10_state.md R24). -/
  errInfo : Reg Nat
  /-- The forward ROM (10_state.md R17, R29). -/
  fwdRom : Vector Byte 32
  /-- The reverse ROM (10_state.md R17, R31). -/
  revRom : Vector Byte 256
  /-- IN (20_memory.md R42). -/
  inBuf : Memory
  /-- OUT (20_memory.md R43). -/
  outBuf : Memory
  /-- The host (00_scope.md R14). -/
  host : HostAgent
  /-- How many free bytes have been drawn. The model's own counter; log entry 5. -/
  freeIdx : Nat
deriving DecidableEq, Repr

/-- A register after reset: its written flag is false (10_state.md R36). Its value is the model's
choice (log entry 3). -/
def Reg.atReset {α : Type} (v : α) : Reg α := { value := v, written := false }

/-- The state after reset (10_state.md R36; 70_reset_and_hazards.md R108, R109): every register
unwritten, both ROMs holding their contents, no buffer supplied, and no host program. -/
def State.reset : State :=
  { cmd := .atReset 0
    arg := .atReset 0
    outCap := .atReset 0
    result := .atReset 0
    status := .atReset 0
    errInfo := .atReset 0
    fwdRom := fwdImage
    revRom := revImage
    inBuf := []
    outBuf := []
    host := { program := [], position := 0, got := 0, taken := [] }
    freeIdx := 0 }

end Sys2Proof.Machine
end

