-- ==== Sys2Proof/Machine/Flags.lean ====
section
/-! DEFINITION. The error kinds with their codes, and the fields of STATUS. The block has no other
flags (10_state.md R35). -/

namespace Sys2Proof.Machine

/-- The errors a command can raise (60_exceptions.md R93). -/
inductive ErrorKind where
  /-- A decode input byte is not a symbol (R94). -/
  | invalidCharacter
  /-- A decode input length that no encoding has (R95). -/
  | invalidInputLength
  /-- OUT_CAP is below the decoded size (R98). -/
  | outputTooSmall
  /-- The command word is illegal (R99). -/
  | illegalCommand
  /-- A table index out of range (R99). -/
  | illegalOperand
deriving DecidableEq, Repr

/-- The code of an error (60_exceptions.md R93). -/
def errorCode : ErrorKind → BitVec 4
  | .invalidCharacter => 1
  | .invalidInputLength => 2
  | .outputTooSmall => 3
  | .illegalCommand => 4
  | .illegalOperand => 5

/-- The code of success, OK (60_exceptions.md R93). -/
def okCode : BitVec 4 := 0

/-- STATUS with this ERR code and RSV = 0 (10_state.md R23; `zext_8(code(E))`, 60_exceptions.md R96). -/
def statusWord (code : BitVec 4) : Byte := code.setWidth 8

/-- STATUS.ERR, bits [3:0] (10_state.md R23). -/
def statusErr (v : Byte) : BitVec 4 := v.extractLsb' 0 4

/-- STATUS.RSV, bits [7:4] (10_state.md R23). -/
def statusRsv (v : Byte) : BitVec 4 := v.extractLsb' 4 4

end Sys2Proof.Machine
end

