-- ==== Sys2Proof/Machine/Ops.lean ====
section
/-! DEFINITION. The shared operations: byte buffers, register writes, the width check, ending a
command, and raising an error (the block's exception entry). -/

namespace Sys2Proof.Machine

/-- What a command or a host line answers. -/
abbrev Result := Host.Outcome State Fault Refusal

/-! ## Byte buffers (20_memory.md R41 to R45, R50) -/

/-- What an index that is not listed reads as: no value, since it lies outside the buffer
(20_memory.md R44). Log entry 6. -/
def unlistedByte : Option Byte := none

/-- The number of bytes of a buffer, IN_LEN or OUT_LEN (20_memory.md R42, R43). -/
def memSize (m : Memory) : Nat := m.length

/-- MemRead(addr, 1) (00_scope.md R10). -/
def readByte : Memory → Nat → Option Byte
  | [], _ => unlistedByte
  | c :: m, a => if c.1 = a then some c.2 else readByte m a

/-- MemWrite(addr, 1, v) (00_scope.md R10). The buffer's indices stay as they are. -/
def writeByte (m : Memory) (a : Nat) (v : Byte) : Memory :=
  m.map fun c => if c.1 = a then (a, v) else c

/-- Bytes written at rising indices from `a`. -/
def writeRun : Memory → Nat → List Byte → Memory
  | m, _, [] => m
  | m, a, b :: bs => writeRun (writeByte m a b) (a + 1) bs

/-- The `count` bytes from index `a`, when all of them exist. -/
def readRun (m : Memory) : Nat → Nat → Option (List Byte)
  | _, 0 => some []
  | a, count + 1 =>
    match readByte m a with
    | none => none
    | some b => (readRun m (a + 1) count).map (b :: ·)

/-- Cells for these bytes at indices from `a`. -/
def cellsFrom : Nat → List Byte → Memory
  | _, [] => []
  | a, b :: bs => (a, b) :: cellsFrom (a + 1) bs

/-- The buffer that holds these bytes (30_encoding.md R64: "IN becomes the given bytes; `IN_LEN` their
count"). -/
def bufferOf (bytes : List Byte) : Memory := cellsFrom 0 bytes

/-- `count` free bytes from draw number `idx` (60_exceptions.md R97: "A model draws each byte freely").
Log entry 5. -/
def freeBytes (idx : Nat) : Nat → List Byte
  | 0 => []
  | count + 1 => Config.freeByte idx :: freeBytes (idx + 1) count

/-- The canonical form of a buffer: its indices are 0 .. size - 1, each listed once, in rising order.
An index that is not listed has no value, so no entry repeats one. -/
abbrev Memory.wf (m : Memory) : Prop := m.map Prod.fst = List.range m.length

/-! ## Register writes. Each sets the written flag (10_state.md R25) -/

/-- A register just written with `v`. -/
def Reg.holding {α : Type} (v : α) : Reg α := { value := v, written := true }

/-- `x[CMD] <- w` (10_state.md R19). -/
def State.setCmd (w : Byte) (s : State) : State := { s with cmd := .holding w }

/-- `x[ARG] <- v` (10_state.md R20). -/
def State.setArg (v : Nat) (s : State) : State := { s with arg := .holding v }

/-- `x[OUT_CAP] <- v` (10_state.md R21). -/
def State.setOutCap (v : Nat) (s : State) : State := { s with outCap := .holding v }

/-- `x[RESULT] <- v` (10_state.md R22). -/
def State.setResult (v : Nat) (s : State) : State := { s with result := .holding v }

/-- STATUS and ERR_INFO as a command leaves them (10_state.md R23, R24): "Every command writes STATUS
exactly once, at its end". -/
def State.report (code : BitVec 4) (info : Nat) (s : State) : State :=
  { s with status := .holding (statusWord code), errInfo := .holding info }

/-- Bytes of OUT written from index 0 up (20_memory.md R43). -/
def State.storeOut (bytes : List Byte) (s : State) : State :=
  { s with outBuf := writeRun s.outBuf 0 bytes }

/-- `OUT[0 .. cap-1]` with `any` bytes, and nothing else of OUT changed (60_exceptions.md R97). -/
def State.scrambleOut (cap : Nat) (s : State) : State :=
  { s with
    outBuf := writeRun s.outBuf 0 (freeBytes s.freeIdx cap)
    freeIdx := s.freeIdx + cap }

/-! ## The end of a command -/

/-- A command that raises nothing ends by `x[STATUS] <- 0` and `x[ERR_INFO] <- 0`
(60_exceptions.md R103). There is no return from an error (R104): the next command is the host's. -/
def complete (s : State) : State := s.report okCode 0

/-- `raise E(info)`, the block's exception entry (60_exceptions.md R96): STATUS gets the code, ERR_INFO
the information value, and the command ends. RESULT, ARG, OUT_CAP, CMD, IN and OUT stay. -/
def raiseError (e : ErrorKind) (info : Nat) (s : State) : State := s.report (errorCode e) info

/-- An error raised by DEC: as `raiseError`, and `OUT[0 .. x[OUT_CAP]-1]` holds `any` bytes
(60_exceptions.md R97). -/
def raiseInDec (e : ErrorKind) (info cap : Nat) (s : State) : State :=
  raiseError e info (s.scrambleOut cap)

/-! ## The width check (60_exceptions.md R101) -/

/-- Whether a number fits in W_LEN bits. Written by the number's bit length, so that it evaluates
although W_LEN is opaque; `fitsLen_iff` says it is `v < 2^W_LEN`. -/
def fitsLen (v : Nat) : Bool := decide (Nat.log2 v < Config.wLen)

/-- Go on only if the length arithmetic fits in W_LEN bits, else `refuse R_WIDTH`
(60_exceptions.md R101). -/
def withWidth (v : Nat) (k : Result) : Result := if fitsLen v then k else .refused .width

end Sys2Proof.Machine
end

