-- ==== Sys2Proof/Machine/Operands.lean ====
section
/-! DEFINITION. How a command gets its operands (30_encoding.md R61): the registers ARG and OUT_CAP,
the bytes of IN it examines, the room in OUT, and the two table lookups. Each check is made in the
order of 60_exceptions.md R102. -/

namespace Sys2Proof.Machine

/-- A command's read of a register: its value, or F_UNWRITTEN_READ while the written flag is false
(10_state.md R25). -/
def withOperand (r : Reg Nat) (k : Nat → Result) : Result :=
  if r.written then k r.value else .fault .unwrittenRead

/-- The bytes `IN[0 .. n-1]`, when IN has that many (20_memory.md R42). -/
def inputBytes (m : Memory) (n : Nat) : Option (List Byte) :=
  if n ≤ memSize m then readRun m 0 n else none

/-- The input operand `IN[0 .. n-1]`, or F_IN_OVERRUN when `n > IN_LEN` (20_memory.md R44). -/
def withInput (m : Memory) (n : Nat) (k : List Byte → Result) : Result :=
  match inputBytes m n with
  | none => .fault .inOverrun
  | some bytes => k bytes

/-- Go on only if OUT has `cap` bytes, else F_OUT_OVERRUN (20_memory.md R44). -/
def withCapacity (m : Memory) (cap : Nat) (k : Result) : Result :=
  if cap ≤ memSize m then k else .fault .outOverrun

/-- FwdLookup, the read port of the forward ROM (40_lut.md R68). -/
def fwdLookup (rom : Vector Byte 32) (i : CodePoint) : Byte := rom[i.toNat]'(i.isLt)

/-- The raw entry `REV[b]` of the reverse ROM (10_state.md R31). -/
def revEntry (rom : Vector Byte 256) (b : Byte) : Byte := rom[b.toNat]'(b.isLt)

/-- The consistency invariant of two tables, in both directions (10_state.md R32): "for every code point
`i`, `reverse[alphabet[i]] == i`; for every byte `b` not in the alphabet, `reverse[b]` is the sentinel".
No step checks it (R40); `romImages_consistent` proves it of the two images. -/
def tablesConsistent (fwd : Vector Byte 32) (rev : Vector Byte 256) : Prop :=
  (∀ i : CodePoint, (revEntry rev (fwdLookup fwd i)).toNat = i.toNat) ∧
    ∀ b : Byte, (∀ i : CodePoint, fwdLookup fwd i ≠ b) → revEntry rev b = sentinel

/-- RevLookup, the read port of the reverse ROM (40_lut.md R69): a code point, or none for the spec's
`Invalid`, by the comparison `>= 32`. -/
def revLookup (rom : Vector Byte 256) (b : Byte) : Option CodePoint :=
  if 32 ≤ (revEntry rom b).toNat then none else some ((revEntry rom b).extractLsb' 0 5)

end Sys2Proof.Machine
end

