-- ==== Sys2Proof/Machine/Decoder.lean ====
section
/-! DEFINITION. The decoder: the padding validator, the decoded size, the bit unpacker, and the
commands DECSZ and DEC (42_decode.md). -/

namespace Sys2Proof.Machine

/-- The length of the maximal run of `=` that ends the examined input (42_decode.md R79). -/
def padRun (input : List Byte) : Nat := (input.reverse.takeWhile (· == padChar)).length

/-- PadCount (42_decode.md R79): a run of 1, 3, 4 or 6 is padding; any other run counts as none. -/
def padCount (input : List Byte) : Nat :=
  if padRun input ∈ [1, 3, 4, 6] then padRun input else 0

/-- What DecLen answers (42_decode.md R80). -/
inductive DecLen where
  /-- `Ok(size, L')`: the decoded byte count and the stripped length. -/
  | ok (size stripped : Nat)
  /-- `Err(InvalidInputLength, L)`. -/
  | invalid (len : Nat)
deriving DecidableEq, Repr

/-- `Ok((5 * L') div 8, L')` for the stripped length `L'` (42_decode.md R80). -/
def decLenOk (stripped : Nat) : DecLen := .ok (5 * stripped / 8) stripped

/-- DecLen (42_decode.md R80) of the examined bytes. Padded mode demands a multiple of 8; unpadded mode
rejects the remainders 1, 3 and 6, and looks for padding at remainder 0 only. -/
def decLen (pad : Bool) (input : List Byte) : DecLen :=
  if input.length = 0 then .ok 0 0
  else if pad then
    if input.length % 8 ≠ 0 then .invalid input.length
    else decLenOk (input.length - padCount input)
  else if input.length % 8 ∈ [1, 3, 6] then .invalid input.length
  else if input.length % 8 = 0 then decLenOk (input.length - padCount input)
  else decLenOk input.length

/-- `T(e)`, the bytes of a tail of `e` symbols (42_decode.md R82, R85). -/
def tailBytes : Nat → Nat
  | 2 => 1
  | 4 => 2
  | 5 => 3
  | 7 => 4
  | _ => 0

/-- What the symbol lookup of a whole input answers. -/
inductive Symbols where
  /-- Every byte is a symbol; these are the code points. -/
  | codes (cs : List CodePoint)
  /-- The lowest index whose byte is not a symbol. -/
  | bad (index : Nat)
deriving DecidableEq, Repr

/-- SymbolValue at rising indices from `i` (42_decode.md R83): "the error reports the lowest index
holding a non-symbol among those examined". The command is atomic, so the model looks every symbol up
before it writes a byte (42_decode.md R84; log entry 11). -/
def symbolValues (rom : Vector Byte 256) : Nat → List Byte → Symbols
  | _, [] => .codes []
  | i, b :: bs =>
    match revLookup rom b with
    | none => .bad i
    | some c =>
      match symbolValues rom (i + 1) bs with
      | .bad j => .bad j
      | .codes cs => .codes (c :: cs)

/-- Eight code points in the accumulator, the first in bits [39:35] (20_memory.md R47). -/
def packCodes (c₀ c₁ c₂ c₃ c₄ c₅ c₆ c₇ : CodePoint) : Accumulator :=
  c₀ ++ c₁ ++ c₂ ++ c₃ ++ c₄ ++ c₅ ++ c₆ ++ c₇

/-- Output byte `k` of a group, `acc[39-8k : 32-8k]` (20_memory.md R47). -/
def byteSlice (acc : Accumulator) (k : Nat) : Byte := acc.extractLsb' (32 - 8 * k) 8

/-- The first `count` bytes of an accumulator (42_decode.md R84, R85). -/
def bytesOf (acc : Accumulator) (count : Nat) : List Byte :=
  (List.range count).map (byteSlice acc)

/-- DecodeGroup (42_decode.md R84): the 5 bytes of eight code points. -/
def decodeGroup (c₀ c₁ c₂ c₃ c₄ c₅ c₆ c₇ : CodePoint) : List Byte :=
  bytesOf (packCodes c₀ c₁ c₂ c₃ c₄ c₅ c₆ c₇) 5

/-- DecodeTail (42_decode.md R85): the missing code points are zero, and `T(e)` bytes are written. The
bits left over are discarded unchecked (R86). -/
def decodeTail (tail : List CodePoint) : List Byte :=
  bytesOf
    (packCodes (tail.getD 0 0) (tail.getD 1 0) (tail.getD 2 0) (tail.getD 3 0)
      (tail.getD 4 0) (tail.getD 5 0) (tail.getD 6 0) (tail.getD 7 0))
    (tailBytes tail.length)

/-- The bytes DEC writes from `OUT[0]` up: full groups, then the tail if there is one
(42_decode.md R87). -/
def decodeCodes : List CodePoint → List Byte
  | c₀ :: c₁ :: c₂ :: c₃ :: c₄ :: c₅ :: c₆ :: c₇ :: rest =>
    decodeGroup c₀ c₁ c₂ c₃ c₄ c₅ c₆ c₇ ++ decodeCodes rest
  | [] => []
  | tail => decodeTail tail

/-- DECSZ (42_decode.md R81): on success ARG gets the stripped length and RESULT the size; on an error
both stay. -/
def execDecsz (pad : Bool) (s : State) : Result :=
  withOperand s.arg fun n =>
    withInput s.inBuf n fun input =>
      withWidth (5 * n)
        (match decLen pad input with
         | .invalid len => .next (raiseError .invalidInputLength len s)
         | .ok size stripped => .next (complete ((s.setArg stripped).setResult size)))

/-- DEC (42_decode.md R87): the checks in the order of 60_exceptions.md R102. ARG is never written
(R88). -/
def execDec (pad : Bool) (s : State) : Result :=
  withOperand s.arg fun n =>
    withOperand s.outCap fun cap =>
      withInput s.inBuf n fun input =>
        withCapacity s.outBuf cap
          (withWidth (5 * n)
            (match decLen pad input with
             | .invalid len => .next (raiseInDec .invalidInputLength len cap s)
             | .ok size stripped =>
              if cap < size then .next (raiseInDec .outputTooSmall size cap s)
              else
                match symbolValues s.revRom 0 (input.take stripped) with
                | .bad index => .next (raiseInDec .invalidCharacter index cap s)
                | .codes cs => .next (complete ((s.storeOut (decodeCodes cs)).setResult size))))

end Sys2Proof.Machine
end

