-- ==== Sys2Proof/Machine/Encoder.lean ====
section
/-! DEFINITION. The encoder: the encoded size, the bit packer, and the commands ENCSZ and ENC
(41_encode.md). -/

namespace Sys2Proof.Machine

/-- EncSize (41_encode.md R72), with integer division. -/
def encSize (n : Nat) (pad : Bool) : Nat :=
  if n = 0 then 0
  else if pad then 8 * (((8 * n + 4) / 5 + 7) / 8)
  else (8 * n + 4) / 5

/-- `S(r)`, the symbols of a tail of `r` bytes (41_encode.md R75). -/
def tailSymbols : Nat → Nat
  | 1 => 2
  | 2 => 4
  | 3 => 5
  | 4 => 7
  | _ => 0

/-- Five bytes in the accumulator, the first in bits [39:32] (20_memory.md R46). -/
def packBytes (b₀ b₁ b₂ b₃ b₄ : Byte) : Accumulator := b₀ ++ b₁ ++ b₂ ++ b₃ ++ b₄

/-- Code point `j` of a group, `acc[39-5j : 35-5j]` (20_memory.md R46). -/
def codeSlice (acc : Accumulator) (j : Nat) : CodePoint := acc.extractLsb' (35 - 5 * j) 5

/-- The first `count` symbols of an accumulator (41_encode.md R74, R75). -/
def symbolsOf (rom : Vector Byte 32) (acc : Accumulator) (count : Nat) : List Byte :=
  (List.range count).map fun j => fwdLookup rom (codeSlice acc j)

/-- EncodeGroup (41_encode.md R74): the 8 symbols of five bytes. -/
def encodeGroup (rom : Vector Byte 32) (b₀ b₁ b₂ b₃ b₄ : Byte) : List Byte :=
  symbolsOf rom (packBytes b₀ b₁ b₂ b₃ b₄) 8

/-- EncodeTail (41_encode.md R75): the bytes go to the high-order positions, the rest of the
accumulator is zero; `S(r)` symbols, then pad characters to 8 in padded mode. -/
def encodeTail (rom : Vector Byte 32) (pad : Bool) (tail : List Byte) : List Byte :=
  symbolsOf rom
      (packBytes (tail.getD 0 0) (tail.getD 1 0) (tail.getD 2 0) (tail.getD 3 0) (tail.getD 4 0))
      (tailSymbols tail.length)
    ++ if pad then List.replicate (8 - tailSymbols tail.length) padChar else []

/-- The bytes ENC writes from `OUT[0]` up: full groups, then the tail if there is one
(41_encode.md R76). -/
def encodeBytes (rom : Vector Byte 32) (pad : Bool) : List Byte → List Byte
  | b₀ :: b₁ :: b₂ :: b₃ :: b₄ :: rest => encodeGroup rom b₀ b₁ b₂ b₃ b₄ ++ encodeBytes rom pad rest
  | [] => []
  | tail => encodeTail rom pad tail

/-- ENCSZ (41_encode.md R73). -/
def execEncsz (pad : Bool) (s : State) : Result :=
  withOperand s.arg fun n =>
    withWidth (8 * n + 4) (.next (complete (s.setResult (encSize n pad))))

/-- ENC (41_encode.md R76): the checks in the order of 60_exceptions.md R102, then the symbols, then
RESULT. -/
def execEnc (pad : Bool) (s : State) : Result :=
  withOperand s.arg fun n =>
    withOperand s.outCap fun cap =>
      withInput s.inBuf n fun input =>
        withCapacity s.outBuf cap
          (withWidth (8 * n + 4)
            (if cap < encSize n pad then .fault .encUndersized
             else
              .next (complete ((s.storeOut (encodeBytes s.fwdRom pad input)).setResult
                (encSize n pad)))))

end Sys2Proof.Machine
end

