-- ==== Sys2Proof/Machine/Lut.lean ====
section
/-! DEFINITION. The table read-out commands FWD and REV (40_lut.md). -/

namespace Sys2Proof.Machine

/-- FWD (40_lut.md R70): RESULT gets the forward entry at ARG, or IllegalOperand when ARG is 32 or
more. -/
def execFwd (s : State) : Result :=
  withOperand s.arg fun i =>
    if 32 ≤ i then .next (raiseError .illegalOperand i s)
    else .next (complete (s.setResult (fwdLookup s.fwdRom (BitVec.ofNat 5 i)).toNat))

/-- REV (40_lut.md R71): RESULT gets the reverse entry at ARG, a code point or SENTINEL, or
IllegalOperand when ARG is 256 or more. -/
def execRev (s : State) : Result :=
  withOperand s.arg fun b =>
    if 256 ≤ b then .next (raiseError .illegalOperand b s)
    else .next (complete (s.setResult (revEntry s.revRom (BitVec.ofNat 8 b)).toNat))

end Sys2Proof.Machine
end

