-- ==== Sys2Proof/Machine/Dispatch.lean ====
section
/-! DEFINITION. One arm for each command. -/

namespace Sys2Proof.Machine

def exec (i : Instr) (s : State) : Host.Outcome State Fault Refusal :=
  match i with
  | .encsz pad => Sys2Proof.Machine.execEncsz pad s
  | .enc pad => Sys2Proof.Machine.execEnc pad s
  | .decsz pad => Sys2Proof.Machine.execDecsz pad s
  | .dec pad => Sys2Proof.Machine.execDec pad s
  | .fwd => Sys2Proof.Machine.execFwd s
  | .rev => Sys2Proof.Machine.execRev s

end Sys2Proof.Machine
end

