-- ==== Sys2Proof/Machine/HostPort.lean ====
section
/-! DEFINITION. What each line of a host program does (30_encoding.md R64; 70_reset_and_hazards.md
R112): supplying buffers, register transactions, issuing a command, branching on STATUS.ERR, reset. -/

namespace Sys2Proof.Machine

/-- The number a host value stands for (30_encoding.md R65). -/
def hostValue (v : HostVal) (s : State) : Nat :=
  match v with
  | .lit n => n
  | .got => s.host.got

/-- The host at another position of its program (30_encoding.md R64). -/
def State.goTo (position : Nat) (s : State) : State :=
  { s with host := { s.host with position := position } }

/-- The host at its next line. -/
def State.advance (s : State) : State := s.goTo (s.host.position + 1)

/-- IN becomes these bytes (30_encoding.md R64). -/
def State.supplyIn (bytes : List Byte) (s : State) : State := { s with inBuf := bufferOf bytes }

/-- OUT becomes these bytes (70_reset_and_hazards.md R112). -/
def State.supplyOut (bytes : List Byte) (s : State) : State := { s with outBuf := bufferOf bytes }

/-- OUT becomes `count` bytes of unspecified contents (30_encoding.md R64). Log entry 5. -/
def State.allocOut (count : Nat) (s : State) : State :=
  { s with
    outBuf := bufferOf (freeBytes s.freeIdx count)
    freeIdx := s.freeIdx + count }

/-- The host keeps a value it read (30_encoding.md R64). -/
def State.setGot (v : Nat) (s : State) : State := { s with host := { s.host with got := v } }

/-- The host keeps bytes of OUT as its result (30_encoding.md R65, R66). -/
def State.setTaken (bytes : List Byte) (s : State) : State :=
  { s with host := { s.host with taken := bytes } }

/-- What the host does with `OUT[0 .. count-1]`: it gets "OUT after the command"
(70_reset_and_hazards.md R112). More bytes than OUT has are a fault of the model's own (log
entry 9). -/
def withOutPrefix (count : Nat) (k : List Byte → State) (s : State) : Result :=
  match inputBytes s.outBuf count with
  | none => .fault .hostCopyOverrun
  | some bytes => .next (k bytes)

/-- What issuing a command word does: a legal word's command runs, an illegal word raises
IllegalCommand with the word as its information value (30_encoding.md R60; 60_exceptions.md R99). -/
def runWord (w : Byte) (s : State) : Result :=
  match decode w with
  | .legal i => exec i s
  | .illegal _ => .next (raiseError .illegalCommand w.toNat s)

/-- A host write to CMD "both stores the word and issues the command it encodes" (10_state.md R19). -/
def issueCommand (w : Byte) (s : State) : Result := runWord w (s.setCmd w)

/-- The transaction `(W, index, v)` (10_state.md R18, R26): CMD, ARG and OUT_CAP may be written, every
other index is refused. A value wider than the register is refused under a name of the model's own
(log entry 8). -/
def hostWrite (index v : Nat) (s : State) : Result :=
  match index with
  | 0 => if v < 256 then issueCommand (BitVec.ofNat 8 v) s else .refused .valueTooWide
  | 1 => if fitsLen v then .next (s.setArg v) else .refused .valueTooWide
  | 2 => if fitsLen v then .next (s.setOutCap v) else .refused .valueTooWide
  | _ => .refused .hostAccess

/-- A host read of one register: F_UNWRITTEN_READ while its flag is false (10_state.md R25). -/
def deliver (written : Bool) (v : Nat) (s : State) : Result :=
  if written then .next (s.setGot v) else .fault .unwrittenRead

/-- The transaction `(R, index, _)` (10_state.md R18, R25, R26). -/
def hostRead (index : Nat) (s : State) : Result :=
  match index with
  | 0 => deliver s.cmd.written s.cmd.value.toNat s
  | 1 => deliver s.arg.written s.arg.value s
  | 2 => deliver s.outCap.written s.outCap.value s
  | 3 => deliver s.result.written s.result.value s
  | 4 => deliver s.status.written s.status.value.toNat s
  | 5 => deliver s.errInfo.written s.errInfo.value s
  | _ => .refused .hostAccess

/-- BNZ and BZ: a host read of STATUS, F_UNWRITTEN_READ while its flag is false (10_state.md R25), then a
host-side branch on STATUS.ERR (30_encoding.md R64). The value is tested only; the host's last GET value
stays (log entry 16). -/
def branchOnErr (takenIfNonzero : Bool) (target : Nat) (s : State) : Result :=
  if s.status.written then
    if (statusErr s.status.value != 0) == takenIfNonzero then .next (s.goTo target)
    else .next s.advance
  else .fault .unwrittenRead

/-- Reset (70_reset_and_hazards.md R108): the registers and ROMs are as after reset. IN, OUT and the
host are not the block's (10_state.md R17), so they stay. Log entry 10. -/
def resetBlock (s : State) : State :=
  { State.reset with inBuf := s.inBuf, outBuf := s.outBuf, host := s.host, freeIdx := s.freeIdx }

/-- What one line of the host program does. Every line but a branch moves the host to the next line
first; no command reads or writes the host. -/
def performLine (line : HostLine) (s : State) : Result :=
  match line with
  | .loadIn bytes => .next (s.advance.supplyIn bytes)
  | .loadInFromOut count => withOutPrefix (hostValue count s) s.advance.supplyIn s
  | .takeOut count => withOutPrefix (hostValue count s) s.advance.setTaken s
  | .allocOut count => .next (s.advance.allocOut (hostValue count s))
  | .supplyOut bytes => .next (s.advance.supplyOut bytes)
  | .write index v => hostWrite index (hostValue v s) s.advance
  | .read index => hostRead index s.advance
  | .bnzErr target => branchOnErr true target s
  | .bzErr target => branchOnErr false target s
  | .reset => .next (resetBlock s.advance)

/-- ISSUE: a write of the command's word to CMD (30_encoding.md R64). -/
def issueLine (i : Instr) : HostLine := .write 0 (.lit (encode i).toNat)

/-- ENCODE_OWNED, the host lines of 30_encoding.md R65. `m` is the value of the one GET, up to the last
line, which takes the result. -/
def encodeOwned (bytes : List Byte) (pad : Bool) : List HostLine :=
  [.loadIn bytes, .write 1 (.lit bytes.length), issueLine (.encsz pad), .read 3, .allocOut .got,
    .write 2 .got, issueLine (.enc pad), .takeOut .got]

/-- DECODE_OWNED, the host lines of 30_encoding.md R66, with `fail` the position of its label. ARG is
written again before DEC, because DECSZ rewrote it (70_reset_and_hazards.md R113); the last line takes
the result. -/
def decodeOwned (bytes : List Byte) (pad : Bool) (fail : Nat) : List HostLine :=
  [.loadIn bytes, .write 1 (.lit bytes.length), issueLine (.decsz pad), .bnzErr fail, .read 3,
    .allocOut .got, .write 2 .got, .write 1 (.lit bytes.length), issueLine (.dec pad), .bnzErr fail,
    .takeOut .got]

/-- The host's next line, if its program has one (30_encoding.md R64). -/
def nextLine (s : State) : Option HostLine := s.host.program[s.host.position]?

end Sys2Proof.Machine
end

