-- ==== Sys2Proof/Machine/Step.lean ====
section
/-! DEFINITION. One step of the machine: one line of the host program, with the command it issues run
to its end (00_scope.md R14). -/

namespace Sys2Proof.Machine

/-- One step. With no line left the block is idle and nothing changes: "after reset the block is idle
and does nothing until the host writes CMD" (70_reset_and_hazards.md R109). -/
def step (s : State) : Host.Outcome State Fault Refusal :=
  match nextLine s with
  | none => .next s
  | some line => performLine line s

/-- `s` with this command word as the host's next transaction. A command is "the byte the host writes
to CMD, not a word read from memory" (20_memory.md R55), so what is placed is a host program of that
one write. "Before each command the host must ... write ARG ... and write OUT_CAP; then write CMD"
(70_reset_and_hazards.md R111): the two registers count as written, with the values they hold. Log
entry 4. -/
def State.withFetchWord (s : State) (nbits w : Nat) : State :=
  { s with
    host := { s.host with program := [.write 0 (.lit (w % 2 ^ nbits))], position := 0 }
    arg := { s.arg with written := true }
    outCap := { s.outCap with written := true } }

end Sys2Proof.Machine
end

