-- ==== Sys2Proof/Safety.lean ====
section
/-! DEFINITION. What counts as a good run, and the invariant of the machine. -/

namespace Sys2Proof.Machine

/-- `k` steps from `s` end in `t` with no fault and no refusal: a run that "ends well"
(70_reset_and_hazards.md R118). A device error is no bad end. -/
def RunsTo (k : Nat) (s t : State) : Prop := Host.Core.run Sys2Proof.core k s = .next t

/-- What a run that ends well shows: "the final values of the written interface registers and of OUT"
(70_reset_and_hazards.md R118). An unwritten register shows nothing. -/
structure Observation where
  /-- CMD, ARG, OUT_CAP, RESULT, STATUS and ERR_INFO, in the order of their indices. -/
  registers : List (Option Nat)
  /-- The bytes of OUT. -/
  out : List Byte
deriving DecidableEq, Repr

/-- The value of a register if it is written. -/
def observedValue (written : Bool) (v : Nat) : Option Nat := if written then some v else none

/-- The observation of a final state (70_reset_and_hazards.md R118). -/
def observe (s : State) : Observation :=
  { registers :=
      [observedValue s.cmd.written s.cmd.value.toNat, observedValue s.arg.written s.arg.value,
        observedValue s.outCap.written s.outCap.value, observedValue s.result.written s.result.value,
        observedValue s.status.written s.status.value.toNat,
        observedValue s.errInfo.written s.errInfo.value]
    out := s.outBuf.map Prod.snd }

/-- IN and OUT are in canonical form. -/
def MemoriesCanonical (s : State) : Prop := Memory.wf s.inBuf ∧ Memory.wf s.outBuf

/-- Both ROMs "hold the contents of rules R29 and R31 at every point of every run" (10_state.md R30). -/
def RomsIntact (s : State) : Prop := s.fwdRom = fwdImage ∧ s.revRom = revImage

/-- ARG, OUT_CAP, RESULT and ERR_INFO hold W_LEN-bit values (10_state.md R18). -/
def LengthsFit (s : State) : Prop :=
  s.arg.value < 2 ^ Config.wLen ∧ s.outCap.value < 2 ^ Config.wLen ∧
    s.result.value < 2 ^ Config.wLen ∧ s.errInfo.value < 2 ^ Config.wLen

/-- STATUS holds a code from 0 to 5 with RSV = 0 (10_state.md R23). -/
def StatusLegal (s : State) : Prop :=
  statusRsv s.status.value = 0 ∧ (statusErr s.status.value).toNat ≤ 5

/-- STATUS and ERR_INFO are written as soon as a command has been issued, and only then; RESULT is
written only if a command has been issued (60_exceptions.md R103; 70_reset_and_hazards.md R119). -/
def FlagsCoherent (s : State) : Prop :=
  s.status.written = s.cmd.written ∧ s.errInfo.written = s.cmd.written ∧
    (s.result.written = true → s.cmd.written = true)

/-- The invariant of the machine. -/
structure Inv (s : State) : Prop where
  memories : MemoriesCanonical s
  roms : RomsIntact s
  lengths : LengthsFit s
  status : StatusLegal s
  flags : FlagsCoherent s

end Sys2Proof.Machine
end

