-- ==== Sys2Proof/Certificates/Slice0/Obligations.lean ====
section
/-! DEFINITION. The statements for the provers. They say what the rules of spec/ say in terms of
`readByte`, numbers and the registers; the definitions of `Sys2Proof.Spec` are their vocabulary, written
from the spec and not from the meanings. -/

namespace Sys2Proof.Spec

open Sys2Proof.Machine

/-- The byte at index `i` of a buffer, as a number. -/
def byteAt (m : Memory) (i : Nat) : Nat := ((readByte m i).getD 0).toNat

/-- The byte at index `i` of the first `n`, or zero past them: "remaining positions implicitly zero"
(41_encode.md R75). -/
def byteBelow (m : Memory) (n i : Nat) : Nat := if i < n then byteAt m i else 0

/-- Group `g` of the first `n` bytes as a 40-bit number, the first byte in bits [39:32]
(20_memory.md R46). -/
def groupValue (m : Memory) (n g : Nat) : Nat :=
  byteBelow m n (5 * g) * 2 ^ 32 + byteBelow m n (5 * g + 1) * 2 ^ 24
    + byteBelow m n (5 * g + 2) * 2 ^ 16 + byteBelow m n (5 * g + 3) * 2 ^ 8
    + byteBelow m n (5 * g + 4)

/-- The symbol of a code point: `A` to `Z` for 0 to 25, `2` to `7` for 26 to 31 (10_state.md R29). -/
def symbolOf (c : Nat) : Nat := if c < 26 then 0x41 + c else 0x32 + (c - 26)

/-- The code point of a symbol, if the byte is one (10_state.md R31). -/
def codeOf (b : Nat) : Option Nat :=
  if 0x41 ≤ b ∧ b ≤ 0x5A then some (b - 0x41)
  else if 0x32 ≤ b ∧ b ≤ 0x37 then some (b - 0x32 + 26)
  else none

/-- The number of alphabet symbols in the encoding of `n` bytes: 8 for each full group, and 0, 2, 4, 5 or
7 for the tail (41_encode.md R72, R75). -/
def dataLength (n : Nat) : Nat := 8 * (n / 5) + [0, 2, 4, 5, 7].getD (n % 5) 0

/-- The number of pad characters that follow them in padded mode: 0, 6, 4, 3 or 1 (41_encode.md R77). -/
def padLength (pad : Bool) (n : Nat) : Nat := if pad then [0, 6, 4, 3, 1].getD (n % 5) 0 else 0

/-- The number of bytes the encoding of `n` bytes has (41_encode.md R72, R77). -/
def encodedLength (pad : Bool) (n : Nat) : Nat := dataLength n + padLength pad n

/-- Byte `k` of the encoding of the first `n` bytes of a buffer: the symbol of slice
`[39-5j : 35-5j]`, `j = k mod 8`, of group `k div 8`, and `=` past the last symbol
(41_encode.md R74, R75). -/
def encodedByte (m : Memory) (n k : Nat) : Nat :=
  if k < dataLength n then symbolOf (groupValue m n (k / 8) / 2 ^ (35 - 5 * (k % 8)) % 32) else 0x3D

/-- The code point at index `i` of the first `n` bytes, or zero past them. -/
def codeBelow (m : Memory) (n i : Nat) : Nat := if i < n then (codeOf (byteAt m i)).getD 0 else 0

/-- Group `g` of the first `n` code points as a 40-bit number, the first in bits [39:35]
(20_memory.md R47). -/
def codesValue (m : Memory) (n g : Nat) : Nat :=
  codeBelow m n (8 * g) * 2 ^ 35 + codeBelow m n (8 * g + 1) * 2 ^ 30
    + codeBelow m n (8 * g + 2) * 2 ^ 25 + codeBelow m n (8 * g + 3) * 2 ^ 20
    + codeBelow m n (8 * g + 4) * 2 ^ 15 + codeBelow m n (8 * g + 5) * 2 ^ 10
    + codeBelow m n (8 * g + 6) * 2 ^ 5 + codeBelow m n (8 * g + 7)

/-- Byte `k` of the decoding of the first `n` symbols of a buffer: slice `[39-8j : 32-8j]`,
`j = k mod 5`, of group `k div 5` (42_decode.md R84, R85). -/
def decodedByte (m : Memory) (n k : Nat) : Nat := codesValue m n (k / 5) / 2 ^ (32 - 8 * (k % 5)) % 256

/-- The byte at index `i` is a symbol of the alphabet. -/
def isSymbol (m : Memory) (i : Nat) : Prop := (codeOf (byteAt m i)).isSome = true

/-- `t` is the length of the maximal run of `=` that ends the first `len` bytes (42_decode.md R79). -/
def padRunIs (m : Memory) (len t : Nat) : Prop :=
  t ≤ len ∧ (∀ j < t, byteAt m (len - 1 - j) = 0x3D) ∧ (t < len → byteAt m (len - 1 - t) ≠ 0x3D)

/-- The padding a run of length `t` counts as (42_decode.md R79). -/
def countedPad (t : Nat) : Nat := if t = 1 ∨ t = 3 ∨ t = 4 ∨ t = 6 then t else 0

/-- The stripped length of an accepted length `len` whose pad run is `t`: padding is counted at
remainder 0, where padded mode always is (42_decode.md R80). -/
def strippedLen (len t : Nat) : Nat := if len % 8 = 0 then len - countedPad t else len

/-- The lengths DecLen accepts in each mode (42_decode.md R80). -/
def acceptsLength (pad : Bool) (len : Nat) : Prop :=
  if pad then len % 8 = 0 else len % 8 = 0 ∨ len % 8 = 2 ∨ len % 8 = 4 ∨ len % 8 = 5 ∨ len % 8 = 7

/-- The commands that read IN (20_memory.md R41). -/
def readsIn : Instr → Bool
  | .enc _ => true
  | .decsz _ => true
  | .dec _ => true
  | .encsz _ => false
  | .fwd => false
  | .rev => false

/-- The commands that read OUT_CAP and write OUT (20_memory.md R41; 30_encoding.md R61). -/
def writesOut : Instr → Bool
  | .enc _ => true
  | .dec _ => true
  | .encsz _ => false
  | .decsz _ => false
  | .fwd => false
  | .rev => false

/-- ARG is written and names bytes that IN has (20_memory.md R44). -/
structure InputReady (s : State) : Prop where
  argWritten : s.arg.written = true
  inForm : Memory.wf s.inBuf
  inBound : s.arg.value ≤ memSize s.inBuf

/-- OUT_CAP is written and names room that OUT has (20_memory.md R44). -/
structure OutputReady (s : State) : Prop where
  capWritten : s.outCap.written = true
  outForm : Memory.wf s.outBuf
  outBound : s.outCap.value ≤ memSize s.outBuf

/-- `t` is `s` with STATUS and ERR_INFO as an error of this code and information value leaves them, and
with `OUT[0 .. cap-1]` holding any bytes: RESULT, ARG and every other register, IN, the ROMs, the
host, and every byte of OUT at `cap` and above are unchanged (60_exceptions.md R96, R97). -/
def DecErrorState (s t : State) (code : Byte) (info : Nat) : Prop :=
  t = { s with
          status := ⟨code, true⟩, errInfo := ⟨info, true⟩
          outBuf := t.outBuf, freeIdx := t.freeIdx } ∧
    memSize t.outBuf = memSize s.outBuf ∧
    ∀ a, s.outCap.value ≤ a → readByte t.outBuf a = readByte s.outBuf a

end Sys2Proof.Spec

open Sys2Proof Sys2Proof.Machine Sys2Proof.Spec

/-! ## Encoding (30_encoding.md) -/

/-- Decoding the word of a command gives the command back. -/
def Obligations.DecodeOfEncodeGivesTheInstr : Prop :=
  ∀ i : Instr, i.wellFormed = true → decode (encode i) = .legal i

/-- The ten legal words of 30_encoding.md R60, each with its command, and no other word is legal. -/
def Obligations.TheTenLegalWords : Prop :=
  decode 0x00 = .legal (.encsz false) ∧ decode 0x08 = .legal (.encsz true) ∧
    decode 0x01 = .legal (.enc false) ∧ decode 0x09 = .legal (.enc true) ∧
    decode 0x02 = .legal (.decsz false) ∧ decode 0x0A = .legal (.decsz true) ∧
    decode 0x03 = .legal (.dec false) ∧ decode 0x0B = .legal (.dec true) ∧
    decode 0x04 = .legal .fwd ∧ decode 0x05 = .legal .rev ∧
    ∀ w : Byte, (∃ i, decode w = .legal i) →
      w ∈ ([0x00, 0x08, 0x01, 0x09, 0x02, 0x0A, 0x03, 0x0B, 0x04, 0x05] : List Byte)

/-- Why a word is illegal, by its bits (30_encoding.md R57, R58, R59): RSV nonzero; else OP 6 or 7; else
PAD = 1 with OP 4 or 5. -/
def Obligations.IllegalWordsByTheirBits : Prop :=
  ∀ w : Byte,
    (w.toNat / 16 ≠ 0 → decode w = .illegal .reservedBits) ∧
      (w.toNat / 16 = 0 → 6 ≤ w.toNat % 8 → decode w = .illegal .reservedOp) ∧
      (w.toNat / 16 = 0 → w.toNat / 8 = 1 → (w.toNat % 8 = 4 ∨ w.toNat % 8 = 5) →
        decode w = .illegal .padOnTableRead)

/-! ## The step and the host (10_state.md, 30_encoding.md, 70_reset_and_hazards.md) -/

/-- A step whose host line writes a legal word to CMD is the word's command, run in the state in which
CMD holds the word and the host has moved to its next line (10_state.md R19; 30_encoding.md R64). -/
def Obligations.StepRunsTheIssuedCommand : Prop :=
  ∀ (s : State) (v : HostVal) (i : Instr),
    nextLine s = some (.write 0 v) → hostValue v s < 256 →
    decode (BitVec.ofNat 8 (hostValue v s)) = .legal i →
    step s = exec i { s with
      cmd := ⟨BitVec.ofNat 8 (hostValue v s), true⟩
      host := { s.host with position := s.host.position + 1 } }

/-- Issuing an illegal word runs to a next state in which CMD holds the word, STATUS is 4 and ERR_INFO is
the word; whatever the other registers hold, and "nothing else changes" (30_encoding.md R60). -/
def Obligations.IllegalWordRaisesIllegalCommand : Prop :=
  ∀ (s : State) (v : HostVal) (why : IllegalWord),
    nextLine s = some (.write 0 v) → hostValue v s < 256 →
    decode (BitVec.ofNat 8 (hostValue v s)) = .illegal why →
    step s = .next { s with
      cmd := ⟨BitVec.ofNat 8 (hostValue v s), true⟩
      status := ⟨4, true⟩
      errInfo := ⟨hostValue v s, true⟩
      host := { s.host with position := s.host.position + 1 } }

/-- With no host line left the block is idle: a step changes nothing (70_reset_and_hazards.md R109). -/
def Obligations.IdleBlockDoesNothing : Prop :=
  ∀ s : State, s.host.program.length ≤ s.host.position → step s = .next s

/-- SET ARG and SET OUT_CAP: the register holds the value and counts as written; nothing else of the block
changes (30_encoding.md R64; 10_state.md R18, R25). -/
def Obligations.HostSetsArgAndOutCap : Prop :=
  ∀ (s : State) (v : HostVal), hostValue v s < 2 ^ Config.wLen →
    (nextLine s = some (.write 1 v) → step s = .next { s with
      arg := ⟨hostValue v s, true⟩
      host := { s.host with position := s.host.position + 1 } }) ∧
    (nextLine s = some (.write 2 v) → step s = .next { s with
      outCap := ⟨hostValue v s, true⟩
      host := { s.host with position := s.host.position + 1 } })

/-- "A host write to RESULT, STATUS or ERR_INFO, or a host transaction naming an index of 6 or more, is
`refuse R_HOST_ACCESS`" (10_state.md R26). -/
def Obligations.ReadOnlyAndAbsentRegistersAreRefused : Prop :=
  ∀ (s : State) (index : Nat),
    (∀ v, 3 ≤ index → nextLine s = some (.write index v) → step s = .refused .hostAccess) ∧
      (6 ≤ index → nextLine s = some (.read index) → step s = .refused .hostAccess)

/-- A host value wider than the register is refused, under a name of the model's own (log entry 8; the
spec says only that a result is never wrapped, 00_scope.md R9). -/
def Obligations.ValueWiderThanTheRegisterIsRefused : Prop :=
  ∀ (s : State) (v : HostVal),
    (nextLine s = some (.write 0 v) → 256 ≤ hostValue v s → step s = .refused .valueTooWide) ∧
      (∀ index, index = 1 ∨ index = 2 → nextLine s = some (.write index v) →
        2 ^ Config.wLen ≤ hostValue v s → step s = .refused .valueTooWide)

/-- GET of a register whose written flag is true gives the host its value and changes nothing of the
block (30_encoding.md R64; 10_state.md R18). -/
def Obligations.HostReadGivesTheRegister : Prop :=
  ∀ (s : State) (index : Nat) (written : Bool) (value : Nat),
    ((index = 0 ∧ written = s.cmd.written ∧ value = s.cmd.value.toNat) ∨
      (index = 1 ∧ written = s.arg.written ∧ value = s.arg.value) ∨
      (index = 2 ∧ written = s.outCap.written ∧ value = s.outCap.value) ∨
      (index = 3 ∧ written = s.result.written ∧ value = s.result.value) ∨
      (index = 4 ∧ written = s.status.written ∧ value = s.status.value.toNat) ∨
      (index = 5 ∧ written = s.errInfo.written ∧ value = s.errInfo.value)) →
    nextLine s = some (.read index) →
    (written = true → step s = .next { s with
      host := { s.host with position := s.host.position + 1, got := value } }) ∧
    (written = false → step s = .fault .unwrittenRead)

/-- BNZ goes to its target exactly when STATUS.ERR, bits [3:0], is nonzero, and BZ exactly when it is
zero; either faults while STATUS is unwritten (30_encoding.md R64; 10_state.md R23, R25). That the value of
the host's last GET stays is the model's choice (log entry 16). -/
def Obligations.HostBranchesOnStatusErr : Prop :=
  ∀ (s : State) (target : Nat),
    (nextLine s = some (.bnzErr target) → s.status.written = true →
      step s = .next { s with host := { s.host with
        position := if s.status.value.toNat % 16 ≠ 0 then target else s.host.position + 1 } }) ∧
    (nextLine s = some (.bzErr target) → s.status.written = true →
      step s = .next { s with host := { s.host with
        position := if s.status.value.toNat % 16 = 0 then target else s.host.position + 1 } }) ∧
    (nextLine s = some (.bnzErr target) ∨ nextLine s = some (.bzErr target) →
      s.status.written = false → step s = .fault .unwrittenRead)

/-- LOAD IN: "IN becomes the given bytes; `IN_LEN` their count", and nothing of the block changes
(30_encoding.md R64). -/
def Obligations.LoadInSuppliesTheBytes : Prop :=
  ∀ (s : State) (bytes : List Byte), nextLine s = some (.loadIn bytes) →
    ∃ t, step s = .next t ∧
      t = { s with
        inBuf := t.inBuf
        host := { s.host with position := s.host.position + 1 } } ∧
      Memory.wf t.inBuf ∧ memSize t.inBuf = bytes.length ∧ ∀ i, readByte t.inBuf i = bytes[i]?

/-- LOAD IN, OUT[0 .. k-1], the transaction of program P1: IN becomes the first `k` bytes of OUT, which
stays (95_test_vectors.md section 3). With more bytes asked for than OUT has it is a fault of the
model's own (log entry 9). -/
def Obligations.LoadInFromOutCopies : Prop :=
  ∀ (s : State) (v : HostVal), nextLine s = some (.loadInFromOut v) → Memory.wf s.outBuf →
    (hostValue v s ≤ memSize s.outBuf → ∃ t, step s = .next t ∧
      t = { s with
        inBuf := t.inBuf
        host := { s.host with position := s.host.position + 1 } } ∧
      Memory.wf t.inBuf ∧ memSize t.inBuf = hostValue v s ∧
      ∀ i < hostValue v s, readByte t.inBuf i = readByte s.outBuf i) ∧
    (memSize s.outBuf < hostValue v s → step s = .fault .hostCopyOverrun)

/-- `result <- OUT[0 .. k-1]`, the last line of both owned forms: the host holds the first `k` bytes of OUT,
and nothing of the block changes (30_encoding.md R65, R66). With more bytes asked for than OUT has it
is a fault of the model's own (log entry 9). -/
def Obligations.HostTakesTheBytesOfOut : Prop :=
  ∀ (s : State) (v : HostVal), nextLine s = some (.takeOut v) → Memory.wf s.outBuf →
    (hostValue v s ≤ memSize s.outBuf → ∃ bytes, step s = .next { s with
        host := { s.host with position := s.host.position + 1, taken := bytes } } ∧
      bytes.length = hostValue v s ∧
      ∀ i < hostValue v s, bytes[i]? = readByte s.outBuf i) ∧
    (memSize s.outBuf < hostValue v s → step s = .fault .hostCopyOverrun)

/-- Supplying OUT, with contents or with `k` unspecified bytes: OUT gets that length, and nothing of the
block changes (30_encoding.md R64; 70_reset_and_hazards.md R112). -/
def Obligations.HostSuppliesOut : Prop :=
  ∀ s : State,
    (∀ bytes, nextLine s = some (.supplyOut bytes) → ∃ t, step s = .next t ∧
      t = { s with
        outBuf := t.outBuf
        host := { s.host with position := s.host.position + 1 } } ∧
      Memory.wf t.outBuf ∧ memSize t.outBuf = bytes.length ∧
      ∀ i, readByte t.outBuf i = bytes[i]?) ∧
    (∀ v, nextLine s = some (.allocOut v) → ∃ t, step s = .next t ∧
      t = { s with
        outBuf := t.outBuf
        freeIdx := t.freeIdx
        host := { s.host with position := s.host.position + 1 } } ∧
      Memory.wf t.outBuf ∧ memSize t.outBuf = hostValue v s)

/-! ## Reset (10_state.md R36; 70_reset_and_hazards.md R108) -/

/-- After reset every written flag is false and both ROMs hold their tables, by the closed forms of
10_state.md R29 and R31; the values of the registers are the model's choice (log entry 3) and are not
stated. -/
def Obligations.ResetLeavesRegistersUnwritten : Prop :=
  State.reset.cmd.written = false ∧ State.reset.arg.written = false ∧
    State.reset.outCap.written = false ∧ State.reset.result.written = false ∧
    State.reset.status.written = false ∧ State.reset.errInfo.written = false ∧
    (∀ i : CodePoint, (fwdLookup State.reset.fwdRom i).toNat = symbolOf i.toNat) ∧
    ∀ b : Byte, (revEntry State.reset.revRom b).toNat = (codeOf b.toNat).getD 0xFF

/-- The reset transaction clears every written flag and leaves both ROMs with their contents, and keeps
IN and OUT, which are not block state (70_reset_and_hazards.md R108; 10_state.md R17; log entry 10). -/
def Obligations.ResetEventClearsTheFlags : Prop :=
  ∀ s : State, nextLine s = some .reset → ∃ t, step s = .next t ∧
    t.cmd.written = false ∧ t.arg.written = false ∧ t.outCap.written = false ∧
    t.result.written = false ∧ t.status.written = false ∧ t.errInfo.written = false ∧
    RomsIntact t ∧ t.inBuf = s.inBuf ∧ t.outBuf = s.outBuf

/-- The reset state meets the invariant. Its clauses on the values of STATUS and of the length registers
hold there through the 0 of log entry 3, the model's choice: the spec leaves the values of unwritten
registers unspecified (10_state.md R36). -/
def Obligations.ResetMeetsTheInvariant : Prop := Inv State.reset

/-! ## The tables (10_state.md, 40_lut.md) -/

/-- The consistency invariant, in both directions, with the alphabet's 32 symbols distinct and `=` not
among them (10_state.md R28, R32). -/
def Obligations.TablesAreConsistent : Prop :=
  (∀ i : CodePoint, (revEntry revImage (fwdLookup fwdImage i)).toNat = i.toNat) ∧
    (∀ b : Byte, (∀ i : CodePoint, fwdLookup fwdImage i ≠ b) → revEntry revImage b = sentinel) ∧
    (∀ i j : CodePoint, fwdLookup fwdImage i = fwdLookup fwdImage j → i = j) ∧
    ∀ i : CodePoint, fwdLookup fwdImage i ≠ padChar

/-- No lookup of DEC depends on which value in 32..255 the sentinel takes, and the raw entry that REV
reads differs only where it is the sentinel (10_state.md R33). -/
def Obligations.SentinelValueIsInvisibleToLookup : Prop :=
  ∀ (snt b : Byte), 32 ≤ snt.toNat →
    revLookup (revImageWith snt) b = revLookup revImage b ∧
      revEntry (revImageWith snt) b =
        if (codeOf b.toNat).isSome then revEntry revImage b else snt

/-- FWD (40_lut.md R70), whole: its word; an unwritten ARG faults; ARG of 32 or more raises IllegalOperand; else
RESULT is the symbol of code point ARG. Nothing else changes. -/
def Obligations.FwdReadsTheForwardTable : Prop :=
  decode 0x04 = .legal .fwd ∧ ∀ s : State, RomsIntact s →
    (s.arg.written = false → exec .fwd s = .fault .unwrittenRead) ∧
    (s.arg.written = true → 32 ≤ s.arg.value →
      exec .fwd s = .next { s with status := ⟨5, true⟩, errInfo := ⟨s.arg.value, true⟩ }) ∧
    (s.arg.written = true → s.arg.value < 32 →
      exec .fwd s = .next { s with
        result := ⟨symbolOf s.arg.value, true⟩, status := ⟨0, true⟩, errInfo := ⟨0, true⟩ })

/-- REV (40_lut.md R71), whole: its word; an unwritten ARG faults; ARG of 256 or more raises IllegalOperand; else
RESULT is the code point of byte ARG, or SENTINEL = 0xFF. Nothing else changes. -/
def Obligations.RevReadsTheReverseTable : Prop :=
  decode 0x05 = .legal .rev ∧ ∀ s : State, RomsIntact s →
    (s.arg.written = false → exec .rev s = .fault .unwrittenRead) ∧
    (s.arg.written = true → 256 ≤ s.arg.value →
      exec .rev s = .next { s with status := ⟨5, true⟩, errInfo := ⟨s.arg.value, true⟩ }) ∧
    (s.arg.written = true → s.arg.value < 256 →
      exec .rev s = .next { s with
        result := ⟨(codeOf s.arg.value).getD 0xFF, true⟩
        status := ⟨0, true⟩, errInfo := ⟨0, true⟩ })

/-! ## The encoder (41_encode.md) -/

/-- EncSize (41_encode.md R72): `ceil(8n / 5)` unpadded and `8 * ceil(n / 5)` padded, which is also the
number of symbols and pad characters ENC writes. -/
def Obligations.EncodedSizeClosedForms : Prop :=
  ∀ n : Nat,
    encSize n false = (8 * n + 4) / 5 ∧ encSize n false = dataLength n ∧
      encSize n true = 8 * ((n + 4) / 5) ∧ encSize n true = dataLength n + padLength true n ∧
      encSize n true % 8 = 0 ∧ ∀ pad, encSize 0 pad = 0 ∧ encSize n pad ≤ 8 * n + 4

/-- ENCSZ (41_encode.md R73), whole: its two words; an unwritten ARG faults; a length that needs more than W_LEN bits is
refused; else RESULT is the encoded size. Nothing else changes. -/
def Obligations.EncszWritesTheEncodedSize : Prop :=
  decode 0x08 = .legal (.encsz true) ∧ decode 0x00 = .legal (.encsz false) ∧
  ∀ (s : State) (pad : Bool),
    (s.arg.written = false → exec (.encsz pad) s = .fault .unwrittenRead) ∧
    (s.arg.written = true → 2 ^ Config.wLen ≤ 8 * s.arg.value + 4 →
      exec (.encsz pad) s = .refused .width) ∧
    (s.arg.written = true → 8 * s.arg.value + 4 < 2 ^ Config.wLen →
      exec (.encsz pad) s = .next { s with
        result := ⟨encodedLength pad s.arg.value, true⟩
        status := ⟨0, true⟩, errInfo := ⟨0, true⟩ })

/-- ENC (41_encode.md R74, R75, R76): when every check passes it answers a next state in which byte `k` of
OUT, for `k` below the encoded size, is the symbol of its 5-bit slice, or `=` past the last symbol, every
other byte of OUT is unchanged, and RESULT is the size. Nothing else changes. -/
def Obligations.EncWritesTheEncoding : Prop :=
  ∀ (s : State) (pad : Bool), InputReady s → OutputReady s → RomsIntact s →
    8 * s.arg.value + 4 < 2 ^ Config.wLen → encodedLength pad s.arg.value ≤ s.outCap.value →
    ∃ t, exec (.enc pad) s = .next t ∧
      t = { s with
        result := ⟨encodedLength pad s.arg.value, true⟩
        status := ⟨0, true⟩, errInfo := ⟨0, true⟩
        outBuf := t.outBuf } ∧
      memSize t.outBuf = memSize s.outBuf ∧
      (∀ k < encodedLength pad s.arg.value,
        (readByte t.outBuf k).map BitVec.toNat = some (encodedByte s.inBuf s.arg.value k)) ∧
      ∀ a, encodedLength pad s.arg.value ≤ a → readByte t.outBuf a = readByte s.outBuf a

/-- The shape of what ENC leaves (41_encode.md R77, R78): alphabet symbols first, then a run of `=` of
length 6, 4, 3, 1 or 0 by `n mod 5` in padded mode, and no `=` in unpadded mode. -/
def Obligations.EncOutputIsSymbolsThenPads : Prop :=
  ∀ (s t : State) (pad : Bool), Memory.wf s.outBuf → RomsIntact s →
    exec (.enc pad) s = .next t →
    t.result.value = dataLength s.arg.value + padLength pad s.arg.value ∧
      (∀ k < dataLength s.arg.value, isSymbol t.outBuf k) ∧
      (∀ k, dataLength s.arg.value ≤ k → k < t.result.value → byteAt t.outBuf k = 0x3D) ∧
      (pad = true → t.result.value % 8 = 0) ∧
      (pad = false → t.result.value % 8 ∈ [0, 2, 4, 5, 7])

/-- ENC into a capacity below its size, with every earlier check passed, is `fault F_ENC_UNDERSIZED`
(41_encode.md R76; 60_exceptions.md R100). -/
def Obligations.EncIntoUndersizedOutFaults : Prop :=
  ∀ (s : State) (pad : Bool), InputReady s → OutputReady s →
    8 * s.arg.value + 4 < 2 ^ Config.wLen → s.outCap.value < encodedLength pad s.arg.value →
    exec (.enc pad) s = .fault .encUndersized

/-! ## The decoder (42_decode.md) -/

/-- DECSZ of an accepted length (42_decode.md R79, R80, R81): ARG becomes the stripped length `L'` and
RESULT is `(5 * L') div 8`. Nothing else changes. -/
def Obligations.DecszWritesSizeAndStrippedLength : Prop :=
  ∀ (s : State) (pad : Bool) (t : Nat), InputReady s → 5 * s.arg.value < 2 ^ Config.wLen →
    acceptsLength pad s.arg.value → padRunIs s.inBuf s.arg.value t →
    exec (.decsz pad) s = .next { s with
      arg := ⟨strippedLen s.arg.value t, true⟩
      result := ⟨5 * strippedLen s.arg.value t / 8, true⟩
      status := ⟨0, true⟩, errInfo := ⟨0, true⟩ }

/-- DECSZ of any other length raises InvalidInputLength with the examined length, and writes STATUS and
ERR_INFO only (42_decode.md R81; 60_exceptions.md R95). -/
def Obligations.DecszRejectsOtherLengths : Prop :=
  ∀ (s : State) (pad : Bool), InputReady s → 5 * s.arg.value < 2 ^ Config.wLen →
    ¬ acceptsLength pad s.arg.value →
    exec (.decsz pad) s =
      .next { s with status := ⟨2, true⟩, errInfo := ⟨s.arg.value, true⟩ }

/-- Whenever DecLen answers `Ok(size, L')`, `L' mod 8` is 0, 2, 4, 5 or 7 and `size` is 5 for each full
group and 0, 1, 2, 3 or 4 for the tail (42_decode.md R82). -/
def Obligations.StrippedLengthsAndTheirSizes : Prop :=
  ∀ (pad : Bool) (input : List Byte) (size stripped : Nat),
    decLen pad input = .ok size stripped →
    (stripped % 8 = 0 ∧ size = 5 * (stripped / 8)) ∨
      (stripped % 8 = 2 ∧ size = 5 * (stripped / 8) + 1) ∨
      (stripped % 8 = 4 ∧ size = 5 * (stripped / 8) + 2) ∨
      (stripped % 8 = 5 ∧ size = 5 * (stripped / 8) + 3) ∨
      (stripped % 8 = 7 ∧ size = 5 * (stripped / 8) + 4)

/-- DEC (42_decode.md R84, R85, R87): when the length is accepted, OUT_CAP is at least the size and every
byte below the stripped length is a symbol, it answers a next state in which byte `k` of OUT, for `k`
below the size, is the 8-bit slice of its group, every other byte of OUT is unchanged, and RESULT is the
size. Nothing else changes; ARG is not written (R88). -/
def Obligations.DecWritesTheDecoding : Prop :=
  ∀ (s : State) (pad : Bool) (run : Nat), InputReady s → OutputReady s → RomsIntact s →
    5 * s.arg.value < 2 ^ Config.wLen → acceptsLength pad s.arg.value →
    padRunIs s.inBuf s.arg.value run →
    5 * strippedLen s.arg.value run / 8 ≤ s.outCap.value →
    (∀ i < strippedLen s.arg.value run, isSymbol s.inBuf i) →
    ∃ t, exec (.dec pad) s = .next t ∧
      t = { s with
        result := ⟨5 * strippedLen s.arg.value run / 8, true⟩
        status := ⟨0, true⟩, errInfo := ⟨0, true⟩
        outBuf := t.outBuf } ∧
      memSize t.outBuf = memSize s.outBuf ∧
      (∀ k < 5 * strippedLen s.arg.value run / 8,
        (readByte t.outBuf k).map BitVec.toNat =
          some (decodedByte s.inBuf (strippedLen s.arg.value run) k)) ∧
      ∀ a, 5 * strippedLen s.arg.value run / 8 ≤ a →
        readByte t.outBuf a = readByte s.outBuf a

/-- DEC of a length that is not accepted raises InvalidInputLength with the examined length, before any
other error (42_decode.md R87; 60_exceptions.md R95, R97, R102). -/
def Obligations.DecRejectsOtherLengths : Prop :=
  ∀ (s : State) (pad : Bool), InputReady s → OutputReady s →
    5 * s.arg.value < 2 ^ Config.wLen → ¬ acceptsLength pad s.arg.value →
    ∃ t, exec (.dec pad) s = .next t ∧ DecErrorState s t 2 s.arg.value

/-- DEC of an accepted length with OUT_CAP below the size raises OutputTooSmall with the size, whatever
the symbols are (60_exceptions.md R97, R98, R102). -/
def Obligations.DecRejectsTooSmallOutput : Prop :=
  ∀ (s : State) (pad : Bool) (run : Nat), InputReady s → OutputReady s →
    5 * s.arg.value < 2 ^ Config.wLen → acceptsLength pad s.arg.value →
    padRunIs s.inBuf s.arg.value run →
    s.outCap.value < 5 * strippedLen s.arg.value run / 8 →
    ∃ t, exec (.dec pad) s = .next t ∧
      DecErrorState s t 3 (5 * strippedLen s.arg.value run / 8)

/-- DEC with the length accepted and room enough, but a byte below the stripped length that is no symbol,
raises InvalidCharacter with the lowest such index (42_decode.md R83, R92; 60_exceptions.md R94, R97). -/
def Obligations.DecRejectsTheLowestNonSymbol : Prop :=
  ∀ (s : State) (pad : Bool) (run index : Nat), InputReady s → OutputReady s → RomsIntact s →
    5 * s.arg.value < 2 ^ Config.wLen → acceptsLength pad s.arg.value →
    padRunIs s.inBuf s.arg.value run →
    5 * strippedLen s.arg.value run / 8 ≤ s.outCap.value →
    index < strippedLen s.arg.value run → ¬ isSymbol s.inBuf index →
    (∀ i < index, isSymbol s.inBuf i) →
    ∃ t, exec (.dec pad) s = .next t ∧ DecErrorState s t 1 index

/-- The low bits of the last tail symbol that belong to no output byte, 2, 4, 1 and 3 of them for tails of
2, 4, 5 and 7 symbols, are discarded: two tails that differ only there decode to the same bytes
(42_decode.md R86). -/
def Obligations.LeftoverBitsAreDiscarded : Prop :=
  ∀ (front : List CodePoint) (c d : CodePoint) (left : Nat),
    ((front.length = 1 ∧ left = 2) ∨ (front.length = 3 ∧ left = 4) ∨
      (front.length = 4 ∧ left = 1) ∨ (front.length = 6 ∧ left = 3)) →
    c.toNat / 2 ^ left = d.toNat / 2 ^ left →
    decodeTail (front ++ [c]) = decodeTail (front ++ [d])

/-- The round trip (42_decode.md R89). Let ENC in mode `m` leave `t`, and let `u` be any state whose IN
starts with the bytes ENC wrote, whose ARG is their number and whose OUT_CAP is at least the number of
bytes encoded. Then DEC in mode `d` on `u` gives the encoded bytes back when the modes match, when
`d` is unpadded, and when that number is a multiple of 5; in the one case left, an unpadded encoding
that has a tail, padded DEC reports an error. -/
def Obligations.DecodeOfEncodeGivesTheBytes : Prop :=
  ∀ (s t u : State) (m d : Bool), RomsIntact s → Memory.wf s.outBuf →
    exec (.enc m) s = .next t →
    RomsIntact u → InputReady u → OutputReady u → 5 * u.arg.value < 2 ^ Config.wLen →
    u.arg.value = t.result.value → s.arg.value ≤ u.outCap.value →
    (∀ k < t.result.value, readByte u.inBuf k = readByte t.outBuf k) →
    ∃ v, exec (.dec d) u = .next v ∧
      ((d = m ∨ d = false ∨ s.arg.value % 5 = 0) →
        v.status.value = 0 ∧ v.result.value = s.arg.value ∧
          ∀ k < s.arg.value, readByte v.outBuf k = readByte s.inBuf k) ∧
      (d = true → m = false → s.arg.value % 5 ≠ 0 → v.status.value ≠ 0)

/-- What each mode accepts, of inputs made of symbols followed by a run of `run` characters `=`, with
room for the decoded size (42_decode.md R90): the listed shapes succeed, and every other one reports
InvalidInputLength, when its length is not accepted, or InvalidCharacter. -/
def Obligations.DecAcceptsExactlyTheseShapes : Prop :=
  ∀ (s : State) (pad : Bool) (run : Nat), InputReady s → OutputReady s → RomsIntact s →
    5 * s.arg.value < 2 ^ Config.wLen → 1 ≤ s.arg.value →
    (acceptsLength pad s.arg.value → 5 * strippedLen s.arg.value run / 8 ≤ s.outCap.value) →
    run ≤ s.arg.value → (∀ i < s.arg.value - run, isSymbol s.inBuf i) →
    (∀ i, s.arg.value - run ≤ i → i < s.arg.value → byteAt s.inBuf i = 0x3D) →
    ∃ t, exec (.dec pad) s = .next t ∧
      (t.status.value = 0 ↔
        if pad then s.arg.value % 8 = 0 ∧ run ∈ [0, 1, 3, 4, 6]
        else (run = 0 ∧ s.arg.value % 8 ∈ [0, 2, 4, 5, 7]) ∨
          (s.arg.value % 8 = 0 ∧ run ∈ [1, 3, 4, 6])) ∧
      (t.status.value = 2 ↔ ¬ acceptsLength pad s.arg.value) ∧
      (t.status.value = 0 ∨ t.status.value = 1 ∨ t.status.value = 2)

/-- DECSZ and DEC agree on the same IN, ARG and PAD (42_decode.md R91): they report InvalidInputLength
together and with the same ERR_INFO, the RESULT of DECSZ is the RESULT of every DEC that succeeds, and a
host that sizes OUT from DECSZ never sees OutputTooSmall. -/
def Obligations.DecszAndDecAgree : Prop :=
  ∀ (s d v : State) (pad : Bool),
    exec (.decsz pad) s = .next d → exec (.dec pad) s = .next v →
    (d.status.value = 2 ↔ v.status.value = 2) ∧
      (d.status.value = 2 → d.errInfo = v.errInfo) ∧
      (v.status.value = 0 → d.status.value = 0 ∧ v.result = d.result) ∧
      (d.status.value = 0 → d.result.value ≤ s.outCap.value → v.status.value ≠ 3)

/-- DECSZ rewrites ARG, and a DEC that follows without restoring it reads the stripped length
(70_reset_and_hazards.md R113): in padded mode it reports InvalidInputLength when padding was stripped;
in unpadded mode it does what DEC with the original length does. Where that DEC reports an error, OUT
below OUT_CAP is `any` by the spec, and that it is the same in both runs is the model's choice of free
bytes (log entry 5). -/
def Obligations.DecAfterDecszReadsTheStrippedLength : Prop :=
  ∀ s t : State, s.outCap.written = true → s.outCap.value ≤ memSize s.outBuf →
    (exec (.decsz true) s = .next t → t.status.value = 0 → t.arg.value ≠ s.arg.value →
      ∃ v, exec (.dec true) t = .next v ∧ v.status.value = 2 ∧ v.errInfo.value = t.arg.value) ∧
    (exec (.decsz false) s = .next t → t.status.value = 0 →
      ∃ v w, exec (.dec false) s = .next v ∧ exec (.dec false) t = .next w ∧
        w.status = v.status ∧ w.errInfo = v.errInfo ∧ w.outBuf = v.outBuf ∧
        (v.status.value = 0 → w.result = v.result))

/-! ## Where a command stops (60_exceptions.md R100, R101, R102) -/

/-- A command that reads ARG or OUT_CAP while its written flag is false is `fault F_UNWRITTEN_READ`,
before any other check (10_state.md R25; 60_exceptions.md R102). -/
def Obligations.UnwrittenOperandsFault : Prop :=
  ∀ (s : State) (i : Instr),
    (s.arg.written = false → exec i s = .fault .unwrittenRead) ∧
      (writesOut i = true → s.outCap.written = false → exec i s = .fault .unwrittenRead)

/-- With the registers it reads written (OUT_CAP only for ENC and DEC), `x[ARG] > IN_LEN` is `fault
F_IN_OVERRUN` for the commands that read IN, and next `x[OUT_CAP] > OUT_LEN` is `fault F_OUT_OVERRUN` for those that write OUT
(20_memory.md R44). -/
def Obligations.BufferOverrunsFault : Prop :=
  ∀ (s : State) (i : Instr), s.arg.written = true →
    (writesOut i = true → s.outCap.written = true) →
    (readsIn i = true → memSize s.inBuf < s.arg.value → exec i s = .fault .inOverrun) ∧
      (writesOut i = true → Memory.wf s.inBuf → s.arg.value ≤ memSize s.inBuf →
        memSize s.outBuf < s.outCap.value → exec i s = .fault .outOverrun)

/-- Past those checks, a length whose arithmetic needs more than W_LEN bits is `refuse R_WIDTH`:
`8n + 4 >= 2^W_LEN` for ENC, `5L >= 2^W_LEN` for DECSZ and DEC (60_exceptions.md R101; ENCSZ is in its
own statement). -/
def Obligations.LengthsBeyondTheWidthAreRefused : Prop :=
  ∀ (s : State) (pad : Bool), InputReady s →
    (OutputReady s → 2 ^ Config.wLen ≤ 8 * s.arg.value + 4 →
      exec (.enc pad) s = .refused .width) ∧
    (2 ^ Config.wLen ≤ 5 * s.arg.value → exec (.decsz pad) s = .refused .width) ∧
    (OutputReady s → 2 ^ Config.wLen ≤ 5 * s.arg.value → exec (.dec pad) s = .refused .width)

/-! ## Statements about every command -/

/-- The frame of every command that answers a next state: CMD, OUT_CAP, both ROMs, IN and the host are
unchanged; ARG is unchanged unless the command is DECSZ; OUT keeps its size, and all of it is unchanged
unless the command is ENC or DEC, and then from OUT_CAP up (10_state.md R18, R20, R21, R30;
20_memory.md R42, R43). -/
def Obligations.CommandsChangeOnlyTheirTargets : Prop :=
  ∀ (s t : State) (i : Instr), exec i s = .next t →
    t.cmd = s.cmd ∧ t.outCap = s.outCap ∧ t.fwdRom = s.fwdRom ∧ t.revRom = s.revRom ∧
      t.inBuf = s.inBuf ∧ t.host = s.host ∧
      ((∀ pad, i ≠ .decsz pad) → t.arg = s.arg) ∧
      memSize t.outBuf = memSize s.outBuf ∧
      (writesOut i = false → t.outBuf = s.outBuf ∧ t.freeIdx = s.freeIdx) ∧
      ∀ a, s.outCap.value ≤ a → readByte t.outBuf a = readByte s.outBuf a

/-- Every command that answers a next state writes STATUS and ERR_INFO; STATUS[7:4] is 0 and STATUS.ERR is
0 to 3 or 5 (4 is IllegalCommand's, which no legal command raises); with ERR = 0 it leaves ERR_INFO 0
and RESULT written (10_state.md R23, R24; 60_exceptions.md R93, R103). -/
def Obligations.CommandsReportInStatus : Prop :=
  ∀ (s t : State) (i : Instr), exec i s = .next t →
    t.status.written = true ∧ t.errInfo.written = true ∧
      t.status.value.toNat ∈ [0, 1, 2, 3, 5] ∧
      (t.status.value = 0 → t.errInfo.value = 0 ∧ t.result.written = true)

/-- A command that raises an error leaves RESULT and ARG as they were, value and written flag
(10_state.md R22; 60_exceptions.md R96; 70_reset_and_hazards.md R119). -/
def Obligations.ErrorsLeaveResultAndArg : Prop :=
  ∀ (s t : State) (i : Instr), exec i s = .next t → t.status.value ≠ 0 →
    t.result = s.result ∧ t.arg = s.arg

/-- Reissuing a command that reported an error, on the same IN and registers, reports the same error
(60_exceptions.md R104). -/
def Obligations.ReissuedCommandReportsTheSameError : Prop :=
  ∀ (s t : State) (i : Instr), exec i s = .next t → t.status.value ≠ 0 →
    ∃ u, exec i t = .next u ∧ u.status = t.status ∧ u.errInfo = t.errInfo

/-- Bytes of IN at ARG and above are never read: changing them changes nothing but themselves
(20_memory.md R42). Commands that do not read IN at all depend on none of it. Where DEC reports an
error, OUT below OUT_CAP is `any` by the spec, and that it is the same in both runs is the model's
choice of free bytes (log entry 5). -/
def Obligations.BytesOfInAboveArgAreNotRead : Prop :=
  ∀ (s t : State) (m : Memory) (i : Instr),
    (readsIn i = true → s.arg.value ≤ memSize m ∧
      ∀ a < s.arg.value, readByte m a = readByte s.inBuf a) →
    exec i s = .next t → exec i { s with inBuf := m } = .next { t with inBuf := m }

/-- The block never reads OUT (20_memory.md R43): with another OUT of the same size every register comes
out the same, and each byte of OUT is either unchanged in both runs or written with the same byte in
both. Where DEC reports an error, the bytes of OUT below OUT_CAP are `any` by the spec, and that they
agree is the model's choice of free bytes (log entry 5). -/
def Obligations.OutIsNeverRead : Prop :=
  ∀ (s t : State) (m : Memory) (i : Instr), Memory.wf s.outBuf → Memory.wf m →
    memSize m = memSize s.outBuf → exec i s = .next t →
    ∃ t', exec i { s with outBuf := m } = .next t' ∧ t' = { t with outBuf := t'.outBuf } ∧
      ∀ a, readByte t'.outBuf a = readByte t.outBuf a ∨
        (readByte t'.outBuf a = readByte m a ∧ readByte t.outBuf a = readByte s.outBuf a)

/-- No state carries from one command to the next but ARG and OUT_CAP (10_state.md R38): whatever CMD,
RESULT, STATUS and ERR_INFO held, a command answers the same STATUS, ERR_INFO, ARG and OUT, and the same
RESULT if it succeeds. Where DEC reports an error, OUT below OUT_CAP is `any` by the spec, and that it
is the same is the model's choice of free bytes (log entry 5). -/
def Obligations.EarlierReportsDoNotMatter : Prop :=
  ∀ (s t : State) (i : Instr) (c st : Reg Byte) (r e : Reg Nat), exec i s = .next t →
    exec i { s with cmd := c, result := r, status := st, errInfo := e } =
      .next { t with cmd := c, result := if t.status.value = 0 then t.result else r }

/-! ## Invariants of every step -/

/-- Every step keeps the canonical form of IN and OUT. -/
def Obligations.StepKeepsTheBuffersCanonical : Prop :=
  ∀ s t : State, MemoriesCanonical s → step s = .next t → MemoriesCanonical t

/-- "No command, host transaction or reset writes them": the ROMs hold their contents after reset, and
every step keeps them (10_state.md R30). -/
def Obligations.StepKeepsTheRoms : Prop :=
  RomsIntact State.reset ∧ ∀ s t : State, RomsIntact s → step s = .next t → RomsIntact t

/-- A register once written stays written, until a reset transaction (10_state.md R25;
70_reset_and_hazards.md R108). -/
def Obligations.OnlyResetClearsTheFlags : Prop :=
  ∀ s t : State, nextLine s ≠ some .reset → step s = .next t →
    (s.cmd.written = true → t.cmd.written = true) ∧
      (s.arg.written = true → t.arg.written = true) ∧
      (s.outCap.written = true → t.outCap.written = true) ∧
      (s.result.written = true → t.result.written = true) ∧
      (s.status.written = true → t.status.written = true) ∧
      (s.errInfo.written = true → t.errInfo.written = true)

/-- Every step keeps the invariant: canonical buffers, intact ROMs, lengths below 2^W_LEN, STATUS with a
code from 0 to 5 and RSV = 0, and written flags that agree. After a reset transaction the clauses on the
values of unwritten registers hold through the 0 of log entry 3, the model's choice (10_state.md R36
leaves them unspecified). -/
def Obligations.StepKeepsTheInvariant : Prop :=
  ∀ s t : State, Inv s → step s = .next t → Inv t
end

