-- ==== Sys2Proof/Laws/Bits.lean ====
section
/-! SUPPORT. The accumulators as numbers: packing, slicing, and that each undoes the other. -/

namespace Sys2Proof.Machine

theorem toNat_append_add {n m : Nat} (x : BitVec n) (y : BitVec m) :
    (x ++ y).toNat = x.toNat * 2 ^ m + y.toNat := by
  rw [BitVec.toNat_append, ← Nat.shiftLeft_add_eq_or_of_lt y.isLt, Nat.shiftLeft_eq]

/-- Five bytes as a 40-bit number, the first most significant (20_memory.md R46). -/
theorem packBytes_toNat (b₀ b₁ b₂ b₃ b₄ : Byte) :
    (packBytes b₀ b₁ b₂ b₃ b₄).toNat =
      b₀.toNat * 2 ^ 32 + b₁.toNat * 2 ^ 24 + b₂.toNat * 2 ^ 16 + b₃.toNat * 2 ^ 8 + b₄.toNat := by
  have e : (packBytes b₀ b₁ b₂ b₃ b₄).toNat = (b₀ ++ b₁ ++ b₂ ++ b₃ ++ b₄).toNat := rfl
  rw [e]
  simp only [toNat_append_add]
  omega

/-- Eight code points as a 40-bit number, the first most significant (20_memory.md R47). -/
theorem packCodes_toNat (c₀ c₁ c₂ c₃ c₄ c₅ c₆ c₇ : CodePoint) :
    (packCodes c₀ c₁ c₂ c₃ c₄ c₅ c₆ c₇).toNat =
      c₀.toNat * 2 ^ 35 + c₁.toNat * 2 ^ 30 + c₂.toNat * 2 ^ 25 + c₃.toNat * 2 ^ 20
        + c₄.toNat * 2 ^ 15 + c₅.toNat * 2 ^ 10 + c₆.toNat * 2 ^ 5 + c₇.toNat := by
  have e : (packCodes c₀ c₁ c₂ c₃ c₄ c₅ c₆ c₇).toNat =
      (c₀ ++ c₁ ++ c₂ ++ c₃ ++ c₄ ++ c₅ ++ c₆ ++ c₇).toNat := rfl
  rw [e]
  simp only [toNat_append_add]
  omega

theorem codeSlice_toNat (acc : Accumulator) (j : Nat) :
    (codeSlice acc j).toNat = acc.toNat / 2 ^ (35 - 5 * j) % 32 := by
  simp [codeSlice, BitVec.extractLsb'_toNat, Nat.shiftRight_eq_div_pow]

theorem byteSlice_toNat (acc : Accumulator) (k : Nat) :
    (byteSlice acc k).toNat = acc.toNat / 2 ^ (32 - 8 * k) % 256 := by
  simp [byteSlice, BitVec.extractLsb'_toNat, Nat.shiftRight_eq_div_pow]

/-- Packing the eight slices of an accumulator gives it back. -/
theorem packCodes_slices (acc : Accumulator) :
    packCodes (codeSlice acc 0) (codeSlice acc 1) (codeSlice acc 2) (codeSlice acc 3)
      (codeSlice acc 4) (codeSlice acc 5) (codeSlice acc 6) (codeSlice acc 7) = acc := by
  apply BitVec.eq_of_toNat_eq
  have := acc.isLt
  simp only [packCodes_toNat, codeSlice_toNat]
  omega

/-- Slicing five packed bytes gives them back. -/
theorem byteSlice_packBytes (b₀ b₁ b₂ b₃ b₄ : Byte) :
    byteSlice (packBytes b₀ b₁ b₂ b₃ b₄) 0 = b₀ ∧ byteSlice (packBytes b₀ b₁ b₂ b₃ b₄) 1 = b₁ ∧
      byteSlice (packBytes b₀ b₁ b₂ b₃ b₄) 2 = b₂ ∧ byteSlice (packBytes b₀ b₁ b₂ b₃ b₄) 3 = b₃ ∧
      byteSlice (packBytes b₀ b₁ b₂ b₃ b₄) 4 = b₄ := by
  have h₀ := b₀.isLt
  have h₁ := b₁.isLt
  have h₂ := b₂.isLt
  have h₃ := b₃.isLt
  have h₄ := b₄.isLt
  refine ⟨?_, ?_, ?_, ?_, ?_⟩ <;> apply BitVec.eq_of_toNat_eq <;>
    simp only [byteSlice_toNat, packBytes_toNat] <;> omega

/-- The slices of a tail's accumulator past its last symbol are zero (41_encode.md R75). -/
theorem codeSlice_tail_zero (b₀ b₁ b₂ b₃ : Byte) :
    (∀ j, 2 ≤ j → j < 8 → codeSlice (packBytes b₀ 0 0 0 0) j = 0) ∧
      (∀ j, 4 ≤ j → j < 8 → codeSlice (packBytes b₀ b₁ 0 0 0) j = 0) ∧
      (∀ j, 5 ≤ j → j < 8 → codeSlice (packBytes b₀ b₁ b₂ 0 0) j = 0) ∧
      (∀ j, 7 ≤ j → j < 8 → codeSlice (packBytes b₀ b₁ b₂ b₃ 0) j = 0) := by
  have h₀ := b₀.isLt
  have h₁ := b₁.isLt
  have h₂ := b₂.isLt
  have h₃ := b₃.isLt
  refine ⟨?_, ?_, ?_, ?_⟩ <;> intro j hl hj <;> apply BitVec.eq_of_toNat_eq <;>
    simp only [codeSlice_toNat, packBytes_toNat, BitVec.ofNat_eq_ofNat, BitVec.toNat_ofNat] <;>
    interval_cases j <;> omega

end Sys2Proof.Machine
end

