-- ==== Sys2Proof/Laws/Memory.lean ====
section
/-! SUPPORT. The laws of byte buffers: a read after a write, what a run of writes leaves alone, and that
every operation keeps the canonical form. -/

namespace Sys2Proof.Machine

@[simp] theorem readByte_nil (a : Nat) : readByte [] a = none := rfl

theorem readByte_cons (c : Host.Cell) (m : Memory) (a : Nat) :
    readByte (c :: m) a = if c.1 = a then some c.2 else readByte m a := rfl

@[simp] theorem memSize_nil : memSize [] = 0 := rfl

/-! ## One write -/

@[simp] theorem writeByte_keys (m : Memory) (a : Nat) (v : Byte) :
    (writeByte m a v).map Prod.fst = m.map Prod.fst := by
  unfold writeByte
  rw [List.map_map]
  apply List.map_congr_left
  intro c _
  by_cases h : c.1 = a <;> simp [h]

@[simp] theorem memSize_writeByte (m : Memory) (a : Nat) (v : Byte) :
    memSize (writeByte m a v) = memSize m := by
  simp [memSize, writeByte]

theorem writeByte_wf {m : Memory} (h : Memory.wf m) (a : Nat) (v : Byte) :
    Memory.wf (writeByte m a v) := by
  have hl : (writeByte m a v).length = m.length := memSize_writeByte m a v
  rw [Memory.wf, writeByte_keys, hl]
  exact h

theorem readByte_writeByte_other (m : Memory) {a b : Nat} (h : a ≠ b) (v : Byte) :
    readByte (writeByte m a v) b = readByte m b := by
  induction m with
  | nil => rfl
  | cons c m ih =>
    have e : writeByte (c :: m) a v = (if c.1 = a then (a, v) else c) :: writeByte m a v := rfl
    rw [e, readByte_cons, readByte_cons, ih]
    by_cases hc : c.1 = a
    · have hb : c.1 ≠ b := hc ▸ h
      simp [hc, h]
    · simp [hc]

theorem readByte_writeByte_same (m : Memory) (a : Nat) (v : Byte) :
    readByte (writeByte m a v) a = (readByte m a).map fun _ => v := by
  induction m with
  | nil => rfl
  | cons c m ih =>
    have e : writeByte (c :: m) a v = (if c.1 = a then (a, v) else c) :: writeByte m a v := rfl
    rw [e, readByte_cons, readByte_cons, ih]
    by_cases hc : c.1 = a <;> simp [hc]

/-! ## Which indices exist -/

theorem readByte_isSome_iff (m : Memory) (a : Nat) :
    (readByte m a).isSome = true ↔ a ∈ m.map Prod.fst := by
  induction m with
  | nil => simp
  | cons c m ih =>
    rw [readByte_cons]
    by_cases hc : c.1 = a
    · simp [hc]
    · have hc' : a ≠ c.1 := fun e => hc e.symm
      rw [if_neg hc, ih, List.map_cons, List.mem_cons]
      exact ⟨Or.inr, fun h => h.resolve_left hc'⟩

/-- In canonical form the indices that exist are those below the size. -/
theorem readByte_isSome_of_wf {m : Memory} (h : Memory.wf m) (a : Nat) :
    (readByte m a).isSome = true ↔ a < memSize m := by
  rw [readByte_isSome_iff, h, List.mem_range, memSize]

theorem readByte_exists {m : Memory} (h : Memory.wf m) {a : Nat} (ha : a < memSize m) :
    ∃ b, readByte m a = some b :=
  Option.isSome_iff_exists.mp ((readByte_isSome_of_wf h a).mpr ha)

theorem readByte_none_of_wf {m : Memory} (h : Memory.wf m) {a : Nat} (ha : memSize m ≤ a) :
    readByte m a = none := by
  have : ¬ (readByte m a).isSome = true := by
    rw [readByte_isSome_of_wf h]
    omega
  simpa using this

theorem readByte_writeByte_of_wf {m : Memory} (h : Memory.wf m) {a : Nat} (ha : a < memSize m)
    (v : Byte) : readByte (writeByte m a v) a = some v := by
  obtain ⟨b, hb⟩ := readByte_exists h ha
  rw [readByte_writeByte_same, hb]
  rfl

/-! ## A run of writes -/

@[simp] theorem memSize_writeRun (m : Memory) (a : Nat) (bs : List Byte) :
    memSize (writeRun m a bs) = memSize m := by
  induction bs generalizing m a with
  | nil => rfl
  | cons b bs ih => rw [writeRun, ih, memSize_writeByte]

theorem writeRun_wf {m : Memory} (h : Memory.wf m) (a : Nat) (bs : List Byte) :
    Memory.wf (writeRun m a bs) := by
  induction bs generalizing m a with
  | nil => exact h
  | cons b bs ih => exact ih (writeByte_wf h a b) (a + 1)

/-- A run of writes leaves every other index alone. -/
theorem readByte_writeRun_outside (m : Memory) (a : Nat) (bs : List Byte) {k : Nat}
    (hk : k < a ∨ a + bs.length ≤ k) : readByte (writeRun m a bs) k = readByte m k := by
  induction bs generalizing m a with
  | nil => rfl
  | cons b bs ih =>
    rw [List.length_cons] at hk
    rw [writeRun, ih (writeByte m a b) (a + 1) (by omega),
      readByte_writeByte_other m (by omega : a ≠ k)]

/-- A run of writes leaves the bytes it wrote. -/
theorem readByte_writeRun_inside {m : Memory} (h : Memory.wf m) (a : Nat) (bs : List Byte)
    (hfit : a + bs.length ≤ memSize m) {i : Nat} (hi : i < bs.length) :
    readByte (writeRun m a bs) (a + i) = bs[i]? := by
  induction bs generalizing m a i with
  | nil => exact absurd hi (Nat.not_lt_zero i)
  | cons b bs ih =>
    rw [List.length_cons] at hfit hi
    cases i with
    | zero =>
      have hout := readByte_writeRun_outside (writeByte m a b) (a + 1) bs (k := a)
        (Or.inl (Nat.lt_succ_self a))
      rw [writeRun, show a + 0 = a from rfl, hout, readByte_writeByte_of_wf h (by omega)]
      rfl
    | succ i =>
      have := ih (writeByte_wf h a b) (a + 1) (by rw [memSize_writeByte]; omega)
        (i := i) (by omega)
      rw [writeRun, show a + (i + 1) = a + 1 + i by omega, this]
      simp

/-! ## Buffers made of bytes -/

@[simp] theorem cellsFrom_length (a : Nat) (bs : List Byte) :
    (cellsFrom a bs).length = bs.length := by
  induction bs generalizing a with
  | nil => rfl
  | cons b bs ih => rw [cellsFrom, List.length_cons, ih, List.length_cons]

@[simp] theorem memSize_bufferOf (bs : List Byte) : memSize (bufferOf bs) = bs.length :=
  cellsFrom_length 0 bs

theorem cellsFrom_keys (a : Nat) (bs : List Byte) :
    (cellsFrom a bs).map Prod.fst = List.range' a bs.length := by
  induction bs generalizing a with
  | nil => rfl
  | cons b bs ih => rw [cellsFrom, List.map_cons, ih, List.length_cons, List.range'_succ]

theorem bufferOf_wf (bs : List Byte) : Memory.wf (bufferOf bs) := by
  rw [Memory.wf, bufferOf, cellsFrom_keys, cellsFrom_length, List.range_eq_range']

theorem readByte_cellsFrom (a : Nat) (bs : List Byte) (i : Nat) :
    readByte (cellsFrom a bs) (a + i) = bs[i]? := by
  induction bs generalizing a i with
  | nil => rfl
  | cons b bs ih =>
    rw [cellsFrom, readByte_cons]
    cases i with
    | zero => simp
    | succ i =>
      rw [if_neg (by simp), show a + (i + 1) = a + 1 + i by omega, ih]
      simp

theorem readByte_bufferOf (bs : List Byte) (i : Nat) : readByte (bufferOf bs) i = bs[i]? := by
  have := readByte_cellsFrom 0 bs i
  rwa [Nat.zero_add] at this

/-! ## Free bytes -/

@[simp] theorem freeBytes_length (idx count : Nat) : (freeBytes idx count).length = count := by
  induction count generalizing idx with
  | zero => rfl
  | succ count ih => rw [freeBytes, List.length_cons, ih]

/-! ## Reading a run -/

/-- Everything a read of a run says: it has the length asked for, and each byte is the one stored. -/
theorem readRun_spec {m : Memory} {a count : Nat} {bs : List Byte}
    (h : readRun m a count = some bs) :
    bs.length = count ∧ ∀ i < count, readByte m (a + i) = bs[i]? := by
  induction count generalizing a bs with
  | zero =>
    cases h
    exact ⟨rfl, fun i hi => absurd hi (Nat.not_lt_zero i)⟩
  | succ count ih =>
    rw [readRun] at h
    cases hb : readByte m a with
    | none => simp [hb] at h
    | some b =>
      cases hr : readRun m (a + 1) count with
      | none => simp [hb, hr] at h
      | some cs =>
        obtain ⟨hl, hg⟩ := ih hr
        have e : b :: cs = bs := by simpa [hb, hr] using h
        subst e
        refine ⟨by rw [List.length_cons, hl], fun i hi => ?_⟩
        cases i with
        | zero => simpa using hb
        | succ i => simpa [show a + (i + 1) = a + 1 + i by omega] using hg i (by omega)

theorem readRun_exists {m : Memory} {a count : Nat}
    (h : ∀ i < count, (readByte m (a + i)).isSome = true) : ∃ bs, readRun m a count = some bs := by
  induction count generalizing a with
  | zero => exact ⟨[], rfl⟩
  | succ count ih =>
    obtain ⟨b, hb⟩ := Option.isSome_iff_exists.mp (h 0 (Nat.succ_pos count))
    obtain ⟨bs, hbs⟩ := ih (a := a + 1) fun i hi => by
      simpa [show a + 1 + i = a + (i + 1) by omega] using h (i + 1) (by omega)
    exact ⟨b :: bs, by simp [readRun, show readByte m a = some b by simpa using hb, hbs]⟩

/-- Two buffers that agree on a run of indices read the same there. -/
theorem readRun_congr {m m' : Memory} {a count : Nat}
    (h : ∀ i < count, readByte m (a + i) = readByte m' (a + i)) :
    readRun m a count = readRun m' a count := by
  induction count generalizing a with
  | zero => rfl
  | succ count ih =>
    have h0 : readByte m a = readByte m' a := by simpa using h 0 (Nat.succ_pos count)
    have ht := ih (a := a + 1) fun i hi => by
      simpa [show a + 1 + i = a + (i + 1) by omega] using h (i + 1) (by omega)
    rw [readRun, readRun, h0, ht]

/-- A shorter run is the beginning of a longer one. -/
theorem readRun_take {m : Memory} {a count : Nat} {bs : List Byte}
    (h : readRun m a count = some bs) {k : Nat} (hk : k ≤ count) :
    readRun m a k = some (bs.take k) := by
  induction k generalizing a count bs with
  | zero => rfl
  | succ k ih =>
    cases count with
    | zero => exact absurd hk (Nat.not_succ_le_zero k)
    | succ count =>
      rw [readRun] at h
      cases hb : readByte m a with
      | none => simp [hb] at h
      | some b =>
        cases hr : readRun m (a + 1) count with
        | none => simp [hb, hr] at h
        | some cs =>
          have e : b :: cs = bs := by simpa [hb, hr] using h
          subst e
          simp [readRun, hb, ih hr (Nat.le_of_succ_le_succ hk)]

/-! ## The input operand -/

/-- Everything the input operand says when it is there. -/
theorem inputBytes_spec {m : Memory} {n : Nat} {bs : List Byte} (h : inputBytes m n = some bs) :
    n ≤ memSize m ∧ bs.length = n ∧ ∀ i < n, readByte m i = bs[i]? := by
  unfold inputBytes at h
  split at h
  · rename_i hn
    obtain ⟨hl, hg⟩ := readRun_spec h
    exact ⟨hn, hl, fun i hi => by simpa using hg i hi⟩
  · cases h

/-- In canonical form the input operand is there exactly when IN is long enough
(20_memory.md R44). -/
theorem inputBytes_exists {m : Memory} (h : Memory.wf m) {n : Nat} (hn : n ≤ memSize m) :
    ∃ bs, inputBytes m n = some bs := by
  obtain ⟨bs, hbs⟩ := readRun_exists (m := m) (a := 0) (count := n) fun i hi => by
    rw [Nat.zero_add, readByte_isSome_of_wf h]
    omega
  exact ⟨bs, by rw [inputBytes, if_pos hn, hbs]⟩

theorem inputBytes_none {m : Memory} {n : Nat} (hn : memSize m < n) : inputBytes m n = none := by
  rw [inputBytes, if_neg (by omega)]

theorem inputBytes_congr {m m' : Memory} {n : Nat} (hn : n ≤ memSize m) (hn' : n ≤ memSize m')
    (h : ∀ i < n, readByte m i = readByte m' i) : inputBytes m n = inputBytes m' n := by
  rw [inputBytes, inputBytes, if_pos hn, if_pos hn']
  exact readRun_congr fun i hi => by simpa using h i hi

theorem inputBytes_take {m : Memory} {n : Nat} {bs : List Byte} (h : inputBytes m n = some bs)
    {k : Nat} (hk : k ≤ n) : inputBytes m k = some (bs.take k) := by
  have hn := (inputBytes_spec h).1
  rw [inputBytes, if_pos hn] at h
  rw [inputBytes, if_pos (by omega)]
  exact readRun_take h hk

end Sys2Proof.Machine
end

