-- ==== Sys2Proof/Laws/State.lean ====
section
/-! SUPPORT. What each update of the state does to each field, one lemma each. -/

namespace Sys2Proof.Machine

section
variable (s : State)

@[simp] theorem Reg.holding_value {α : Type} (v : α) : (Reg.holding v).value = v := rfl
@[simp] theorem Reg.holding_written {α : Type} (v : α) : (Reg.holding v).written = true := rfl
@[simp] theorem Reg.atReset_value {α : Type} (v : α) : (Reg.atReset v).value = v := rfl
@[simp] theorem Reg.atReset_written {α : Type} (v : α) : (Reg.atReset v).written = false := rfl


@[simp] theorem State.setCmd_cmd (w : Byte) : (s.setCmd w).cmd = .holding w := rfl
@[simp] theorem State.setCmd_arg (w : Byte) : (s.setCmd w).arg = s.arg := rfl
@[simp] theorem State.setCmd_outCap (w : Byte) : (s.setCmd w).outCap = s.outCap := rfl
@[simp] theorem State.setCmd_result (w : Byte) : (s.setCmd w).result = s.result := rfl
@[simp] theorem State.setCmd_status (w : Byte) : (s.setCmd w).status = s.status := rfl
@[simp] theorem State.setCmd_errInfo (w : Byte) : (s.setCmd w).errInfo = s.errInfo := rfl
@[simp] theorem State.setCmd_fwdRom (w : Byte) : (s.setCmd w).fwdRom = s.fwdRom := rfl
@[simp] theorem State.setCmd_revRom (w : Byte) : (s.setCmd w).revRom = s.revRom := rfl
@[simp] theorem State.setCmd_inBuf (w : Byte) : (s.setCmd w).inBuf = s.inBuf := rfl
@[simp] theorem State.setCmd_outBuf (w : Byte) : (s.setCmd w).outBuf = s.outBuf := rfl
@[simp] theorem State.setCmd_host (w : Byte) : (s.setCmd w).host = s.host := rfl
@[simp] theorem State.setCmd_freeIdx (w : Byte) : (s.setCmd w).freeIdx = s.freeIdx := rfl

@[simp] theorem State.setArg_cmd (v : Nat) : (s.setArg v).cmd = s.cmd := rfl
@[simp] theorem State.setArg_arg (v : Nat) : (s.setArg v).arg = .holding v := rfl
@[simp] theorem State.setArg_outCap (v : Nat) : (s.setArg v).outCap = s.outCap := rfl
@[simp] theorem State.setArg_result (v : Nat) : (s.setArg v).result = s.result := rfl
@[simp] theorem State.setArg_status (v : Nat) : (s.setArg v).status = s.status := rfl
@[simp] theorem State.setArg_errInfo (v : Nat) : (s.setArg v).errInfo = s.errInfo := rfl
@[simp] theorem State.setArg_fwdRom (v : Nat) : (s.setArg v).fwdRom = s.fwdRom := rfl
@[simp] theorem State.setArg_revRom (v : Nat) : (s.setArg v).revRom = s.revRom := rfl
@[simp] theorem State.setArg_inBuf (v : Nat) : (s.setArg v).inBuf = s.inBuf := rfl
@[simp] theorem State.setArg_outBuf (v : Nat) : (s.setArg v).outBuf = s.outBuf := rfl
@[simp] theorem State.setArg_host (v : Nat) : (s.setArg v).host = s.host := rfl
@[simp] theorem State.setArg_freeIdx (v : Nat) : (s.setArg v).freeIdx = s.freeIdx := rfl

@[simp] theorem State.setOutCap_cmd (v : Nat) : (s.setOutCap v).cmd = s.cmd := rfl
@[simp] theorem State.setOutCap_arg (v : Nat) : (s.setOutCap v).arg = s.arg := rfl
@[simp] theorem State.setOutCap_outCap (v : Nat) : (s.setOutCap v).outCap = .holding v := rfl
@[simp] theorem State.setOutCap_result (v : Nat) : (s.setOutCap v).result = s.result := rfl
@[simp] theorem State.setOutCap_status (v : Nat) : (s.setOutCap v).status = s.status := rfl
@[simp] theorem State.setOutCap_errInfo (v : Nat) : (s.setOutCap v).errInfo = s.errInfo := rfl
@[simp] theorem State.setOutCap_fwdRom (v : Nat) : (s.setOutCap v).fwdRom = s.fwdRom := rfl
@[simp] theorem State.setOutCap_revRom (v : Nat) : (s.setOutCap v).revRom = s.revRom := rfl
@[simp] theorem State.setOutCap_inBuf (v : Nat) : (s.setOutCap v).inBuf = s.inBuf := rfl
@[simp] theorem State.setOutCap_outBuf (v : Nat) : (s.setOutCap v).outBuf = s.outBuf := rfl
@[simp] theorem State.setOutCap_host (v : Nat) : (s.setOutCap v).host = s.host := rfl
@[simp] theorem State.setOutCap_freeIdx (v : Nat) : (s.setOutCap v).freeIdx = s.freeIdx := rfl

@[simp] theorem State.setResult_cmd (v : Nat) : (s.setResult v).cmd = s.cmd := rfl
@[simp] theorem State.setResult_arg (v : Nat) : (s.setResult v).arg = s.arg := rfl
@[simp] theorem State.setResult_outCap (v : Nat) : (s.setResult v).outCap = s.outCap := rfl
@[simp] theorem State.setResult_result (v : Nat) : (s.setResult v).result = .holding v := rfl
@[simp] theorem State.setResult_status (v : Nat) : (s.setResult v).status = s.status := rfl
@[simp] theorem State.setResult_errInfo (v : Nat) : (s.setResult v).errInfo = s.errInfo := rfl
@[simp] theorem State.setResult_fwdRom (v : Nat) : (s.setResult v).fwdRom = s.fwdRom := rfl
@[simp] theorem State.setResult_revRom (v : Nat) : (s.setResult v).revRom = s.revRom := rfl
@[simp] theorem State.setResult_inBuf (v : Nat) : (s.setResult v).inBuf = s.inBuf := rfl
@[simp] theorem State.setResult_outBuf (v : Nat) : (s.setResult v).outBuf = s.outBuf := rfl
@[simp] theorem State.setResult_host (v : Nat) : (s.setResult v).host = s.host := rfl
@[simp] theorem State.setResult_freeIdx (v : Nat) : (s.setResult v).freeIdx = s.freeIdx := rfl

@[simp] theorem State.report_cmd (c : BitVec 4) (v : Nat) : (s.report c v).cmd = s.cmd := rfl
@[simp] theorem State.report_arg (c : BitVec 4) (v : Nat) : (s.report c v).arg = s.arg := rfl
@[simp] theorem State.report_outCap (c : BitVec 4) (v : Nat) :
    (s.report c v).outCap = s.outCap := rfl
@[simp] theorem State.report_result (c : BitVec 4) (v : Nat) :
    (s.report c v).result = s.result := rfl
@[simp] theorem State.report_status (c : BitVec 4) (v : Nat) :
    (s.report c v).status = .holding (statusWord c) := rfl
@[simp] theorem State.report_errInfo (c : BitVec 4) (v : Nat) :
    (s.report c v).errInfo = .holding v := rfl
@[simp] theorem State.report_fwdRom (c : BitVec 4) (v : Nat) :
    (s.report c v).fwdRom = s.fwdRom := rfl
@[simp] theorem State.report_revRom (c : BitVec 4) (v : Nat) :
    (s.report c v).revRom = s.revRom := rfl
@[simp] theorem State.report_inBuf (c : BitVec 4) (v : Nat) :
    (s.report c v).inBuf = s.inBuf := rfl
@[simp] theorem State.report_outBuf (c : BitVec 4) (v : Nat) :
    (s.report c v).outBuf = s.outBuf := rfl
@[simp] theorem State.report_host (c : BitVec 4) (v : Nat) : (s.report c v).host = s.host := rfl
@[simp] theorem State.report_freeIdx (c : BitVec 4) (v : Nat) :
    (s.report c v).freeIdx = s.freeIdx := rfl

@[simp] theorem State.storeOut_cmd (bs : List Byte) : (s.storeOut bs).cmd = s.cmd := rfl
@[simp] theorem State.storeOut_arg (bs : List Byte) : (s.storeOut bs).arg = s.arg := rfl
@[simp] theorem State.storeOut_outCap (bs : List Byte) : (s.storeOut bs).outCap = s.outCap := rfl
@[simp] theorem State.storeOut_result (bs : List Byte) : (s.storeOut bs).result = s.result := rfl
@[simp] theorem State.storeOut_status (bs : List Byte) : (s.storeOut bs).status = s.status := rfl
@[simp] theorem State.storeOut_errInfo (bs : List Byte) :
    (s.storeOut bs).errInfo = s.errInfo := rfl
@[simp] theorem State.storeOut_fwdRom (bs : List Byte) : (s.storeOut bs).fwdRom = s.fwdRom := rfl
@[simp] theorem State.storeOut_revRom (bs : List Byte) : (s.storeOut bs).revRom = s.revRom := rfl
@[simp] theorem State.storeOut_inBuf (bs : List Byte) : (s.storeOut bs).inBuf = s.inBuf := rfl
@[simp] theorem State.storeOut_outBuf (bs : List Byte) :
    (s.storeOut bs).outBuf = writeRun s.outBuf 0 bs := rfl
@[simp] theorem State.storeOut_host (bs : List Byte) : (s.storeOut bs).host = s.host := rfl
@[simp] theorem State.storeOut_freeIdx (bs : List Byte) :
    (s.storeOut bs).freeIdx = s.freeIdx := rfl

@[simp] theorem State.scrambleOut_cmd (k : Nat) : (s.scrambleOut k).cmd = s.cmd := rfl
@[simp] theorem State.scrambleOut_arg (k : Nat) : (s.scrambleOut k).arg = s.arg := rfl
@[simp] theorem State.scrambleOut_outCap (k : Nat) : (s.scrambleOut k).outCap = s.outCap := rfl
@[simp] theorem State.scrambleOut_result (k : Nat) : (s.scrambleOut k).result = s.result := rfl
@[simp] theorem State.scrambleOut_status (k : Nat) : (s.scrambleOut k).status = s.status := rfl
@[simp] theorem State.scrambleOut_errInfo (k : Nat) : (s.scrambleOut k).errInfo = s.errInfo := rfl
@[simp] theorem State.scrambleOut_fwdRom (k : Nat) : (s.scrambleOut k).fwdRom = s.fwdRom := rfl
@[simp] theorem State.scrambleOut_revRom (k : Nat) : (s.scrambleOut k).revRom = s.revRom := rfl
@[simp] theorem State.scrambleOut_inBuf (k : Nat) : (s.scrambleOut k).inBuf = s.inBuf := rfl
@[simp] theorem State.scrambleOut_outBuf (k : Nat) :
    (s.scrambleOut k).outBuf = writeRun s.outBuf 0 (freeBytes s.freeIdx k) := rfl
@[simp] theorem State.scrambleOut_host (k : Nat) : (s.scrambleOut k).host = s.host := rfl
@[simp] theorem State.scrambleOut_freeIdx (k : Nat) :
    (s.scrambleOut k).freeIdx = s.freeIdx + k := rfl

@[simp] theorem complete_cmd : (complete s).cmd = s.cmd := rfl
@[simp] theorem complete_arg : (complete s).arg = s.arg := rfl
@[simp] theorem complete_outCap : (complete s).outCap = s.outCap := rfl
@[simp] theorem complete_result : (complete s).result = s.result := rfl
@[simp] theorem complete_status : (complete s).status = .holding (statusWord okCode) := rfl
@[simp] theorem complete_errInfo : (complete s).errInfo = .holding 0 := rfl
@[simp] theorem complete_fwdRom : (complete s).fwdRom = s.fwdRom := rfl
@[simp] theorem complete_revRom : (complete s).revRom = s.revRom := rfl
@[simp] theorem complete_inBuf : (complete s).inBuf = s.inBuf := rfl
@[simp] theorem complete_outBuf : (complete s).outBuf = s.outBuf := rfl
@[simp] theorem complete_host : (complete s).host = s.host := rfl
@[simp] theorem complete_freeIdx : (complete s).freeIdx = s.freeIdx := rfl

@[simp] theorem raiseError_cmd (e : ErrorKind) (v : Nat) : (raiseError e v s).cmd = s.cmd := rfl
@[simp] theorem raiseError_arg (e : ErrorKind) (v : Nat) : (raiseError e v s).arg = s.arg := rfl
@[simp] theorem raiseError_outCap (e : ErrorKind) (v : Nat) :
    (raiseError e v s).outCap = s.outCap := rfl
@[simp] theorem raiseError_result (e : ErrorKind) (v : Nat) :
    (raiseError e v s).result = s.result := rfl
@[simp] theorem raiseError_status (e : ErrorKind) (v : Nat) :
    (raiseError e v s).status = .holding (statusWord (errorCode e)) := rfl
@[simp] theorem raiseError_errInfo (e : ErrorKind) (v : Nat) :
    (raiseError e v s).errInfo = .holding v := rfl
@[simp] theorem raiseError_fwdRom (e : ErrorKind) (v : Nat) :
    (raiseError e v s).fwdRom = s.fwdRom := rfl
@[simp] theorem raiseError_revRom (e : ErrorKind) (v : Nat) :
    (raiseError e v s).revRom = s.revRom := rfl
@[simp] theorem raiseError_inBuf (e : ErrorKind) (v : Nat) :
    (raiseError e v s).inBuf = s.inBuf := rfl
@[simp] theorem raiseError_outBuf (e : ErrorKind) (v : Nat) :
    (raiseError e v s).outBuf = s.outBuf := rfl
@[simp] theorem raiseError_host (e : ErrorKind) (v : Nat) :
    (raiseError e v s).host = s.host := rfl
@[simp] theorem raiseError_freeIdx (e : ErrorKind) (v : Nat) :
    (raiseError e v s).freeIdx = s.freeIdx := rfl

@[simp] theorem raiseInDec_cmd (e : ErrorKind) (v k : Nat) :
    (raiseInDec e v k s).cmd = s.cmd := rfl
@[simp] theorem raiseInDec_arg (e : ErrorKind) (v k : Nat) :
    (raiseInDec e v k s).arg = s.arg := rfl
@[simp] theorem raiseInDec_outCap (e : ErrorKind) (v k : Nat) :
    (raiseInDec e v k s).outCap = s.outCap := rfl
@[simp] theorem raiseInDec_result (e : ErrorKind) (v k : Nat) :
    (raiseInDec e v k s).result = s.result := rfl
@[simp] theorem raiseInDec_status (e : ErrorKind) (v k : Nat) :
    (raiseInDec e v k s).status = .holding (statusWord (errorCode e)) := rfl
@[simp] theorem raiseInDec_errInfo (e : ErrorKind) (v k : Nat) :
    (raiseInDec e v k s).errInfo = .holding v := rfl
@[simp] theorem raiseInDec_fwdRom (e : ErrorKind) (v k : Nat) :
    (raiseInDec e v k s).fwdRom = s.fwdRom := rfl
@[simp] theorem raiseInDec_revRom (e : ErrorKind) (v k : Nat) :
    (raiseInDec e v k s).revRom = s.revRom := rfl
@[simp] theorem raiseInDec_inBuf (e : ErrorKind) (v k : Nat) :
    (raiseInDec e v k s).inBuf = s.inBuf := rfl
@[simp] theorem raiseInDec_outBuf (e : ErrorKind) (v k : Nat) :
    (raiseInDec e v k s).outBuf = writeRun s.outBuf 0 (freeBytes s.freeIdx k) := rfl
@[simp] theorem raiseInDec_host (e : ErrorKind) (v k : Nat) :
    (raiseInDec e v k s).host = s.host := rfl
@[simp] theorem raiseInDec_freeIdx (e : ErrorKind) (v k : Nat) :
    (raiseInDec e v k s).freeIdx = s.freeIdx + k := rfl

@[simp] theorem State.goTo_cmd (p : Nat) : (s.goTo p).cmd = s.cmd := rfl
@[simp] theorem State.goTo_arg (p : Nat) : (s.goTo p).arg = s.arg := rfl
@[simp] theorem State.goTo_outCap (p : Nat) : (s.goTo p).outCap = s.outCap := rfl
@[simp] theorem State.goTo_result (p : Nat) : (s.goTo p).result = s.result := rfl
@[simp] theorem State.goTo_status (p : Nat) : (s.goTo p).status = s.status := rfl
@[simp] theorem State.goTo_errInfo (p : Nat) : (s.goTo p).errInfo = s.errInfo := rfl
@[simp] theorem State.goTo_fwdRom (p : Nat) : (s.goTo p).fwdRom = s.fwdRom := rfl
@[simp] theorem State.goTo_revRom (p : Nat) : (s.goTo p).revRom = s.revRom := rfl
@[simp] theorem State.goTo_inBuf (p : Nat) : (s.goTo p).inBuf = s.inBuf := rfl
@[simp] theorem State.goTo_outBuf (p : Nat) : (s.goTo p).outBuf = s.outBuf := rfl
@[simp] theorem State.goTo_host (p : Nat) : (s.goTo p).host = { s.host with position := p } := rfl
@[simp] theorem State.goTo_freeIdx (p : Nat) : (s.goTo p).freeIdx = s.freeIdx := rfl

@[simp] theorem State.advance_cmd : (s.advance).cmd = s.cmd := rfl
@[simp] theorem State.advance_arg : (s.advance).arg = s.arg := rfl
@[simp] theorem State.advance_outCap : (s.advance).outCap = s.outCap := rfl
@[simp] theorem State.advance_result : (s.advance).result = s.result := rfl
@[simp] theorem State.advance_status : (s.advance).status = s.status := rfl
@[simp] theorem State.advance_errInfo : (s.advance).errInfo = s.errInfo := rfl
@[simp] theorem State.advance_fwdRom : (s.advance).fwdRom = s.fwdRom := rfl
@[simp] theorem State.advance_revRom : (s.advance).revRom = s.revRom := rfl
@[simp] theorem State.advance_inBuf : (s.advance).inBuf = s.inBuf := rfl
@[simp] theorem State.advance_outBuf : (s.advance).outBuf = s.outBuf := rfl
@[simp] theorem State.advance_host :
    (s.advance).host = { s.host with position := s.host.position + 1 } := rfl
@[simp] theorem State.advance_freeIdx : (s.advance).freeIdx = s.freeIdx := rfl

@[simp] theorem State.supplyIn_cmd (bs : List Byte) : (s.supplyIn bs).cmd = s.cmd := rfl
@[simp] theorem State.supplyIn_arg (bs : List Byte) : (s.supplyIn bs).arg = s.arg := rfl
@[simp] theorem State.supplyIn_outCap (bs : List Byte) : (s.supplyIn bs).outCap = s.outCap := rfl
@[simp] theorem State.supplyIn_result (bs : List Byte) : (s.supplyIn bs).result = s.result := rfl
@[simp] theorem State.supplyIn_status (bs : List Byte) : (s.supplyIn bs).status = s.status := rfl
@[simp] theorem State.supplyIn_errInfo (bs : List Byte) :
    (s.supplyIn bs).errInfo = s.errInfo := rfl
@[simp] theorem State.supplyIn_fwdRom (bs : List Byte) : (s.supplyIn bs).fwdRom = s.fwdRom := rfl
@[simp] theorem State.supplyIn_revRom (bs : List Byte) : (s.supplyIn bs).revRom = s.revRom := rfl
@[simp] theorem State.supplyIn_inBuf (bs : List Byte) : (s.supplyIn bs).inBuf = bufferOf bs := rfl
@[simp] theorem State.supplyIn_outBuf (bs : List Byte) : (s.supplyIn bs).outBuf = s.outBuf := rfl
@[simp] theorem State.supplyIn_host (bs : List Byte) : (s.supplyIn bs).host = s.host := rfl
@[simp] theorem State.supplyIn_freeIdx (bs : List Byte) :
    (s.supplyIn bs).freeIdx = s.freeIdx := rfl

@[simp] theorem State.supplyOut_cmd (bs : List Byte) : (s.supplyOut bs).cmd = s.cmd := rfl
@[simp] theorem State.supplyOut_arg (bs : List Byte) : (s.supplyOut bs).arg = s.arg := rfl
@[simp] theorem State.supplyOut_outCap (bs : List Byte) :
    (s.supplyOut bs).outCap = s.outCap := rfl
@[simp] theorem State.supplyOut_result (bs : List Byte) :
    (s.supplyOut bs).result = s.result := rfl
@[simp] theorem State.supplyOut_status (bs : List Byte) :
    (s.supplyOut bs).status = s.status := rfl
@[simp] theorem State.supplyOut_errInfo (bs : List Byte) :
    (s.supplyOut bs).errInfo = s.errInfo := rfl
@[simp] theorem State.supplyOut_fwdRom (bs : List Byte) :
    (s.supplyOut bs).fwdRom = s.fwdRom := rfl
@[simp] theorem State.supplyOut_revRom (bs : List Byte) :
    (s.supplyOut bs).revRom = s.revRom := rfl
@[simp] theorem State.supplyOut_inBuf (bs : List Byte) : (s.supplyOut bs).inBuf = s.inBuf := rfl
@[simp] theorem State.supplyOut_outBuf (bs : List Byte) :
    (s.supplyOut bs).outBuf = bufferOf bs := rfl
@[simp] theorem State.supplyOut_host (bs : List Byte) : (s.supplyOut bs).host = s.host := rfl
@[simp] theorem State.supplyOut_freeIdx (bs : List Byte) :
    (s.supplyOut bs).freeIdx = s.freeIdx := rfl

@[simp] theorem State.allocOut_cmd (k : Nat) : (s.allocOut k).cmd = s.cmd := rfl
@[simp] theorem State.allocOut_arg (k : Nat) : (s.allocOut k).arg = s.arg := rfl
@[simp] theorem State.allocOut_outCap (k : Nat) : (s.allocOut k).outCap = s.outCap := rfl
@[simp] theorem State.allocOut_result (k : Nat) : (s.allocOut k).result = s.result := rfl
@[simp] theorem State.allocOut_status (k : Nat) : (s.allocOut k).status = s.status := rfl
@[simp] theorem State.allocOut_errInfo (k : Nat) : (s.allocOut k).errInfo = s.errInfo := rfl
@[simp] theorem State.allocOut_fwdRom (k : Nat) : (s.allocOut k).fwdRom = s.fwdRom := rfl
@[simp] theorem State.allocOut_revRom (k : Nat) : (s.allocOut k).revRom = s.revRom := rfl
@[simp] theorem State.allocOut_inBuf (k : Nat) : (s.allocOut k).inBuf = s.inBuf := rfl
@[simp] theorem State.allocOut_outBuf (k : Nat) :
    (s.allocOut k).outBuf = bufferOf (freeBytes s.freeIdx k) := rfl
@[simp] theorem State.allocOut_host (k : Nat) : (s.allocOut k).host = s.host := rfl
@[simp] theorem State.allocOut_freeIdx (k : Nat) : (s.allocOut k).freeIdx = s.freeIdx + k := rfl

@[simp] theorem State.setGot_cmd (v : Nat) : (s.setGot v).cmd = s.cmd := rfl
@[simp] theorem State.setGot_arg (v : Nat) : (s.setGot v).arg = s.arg := rfl
@[simp] theorem State.setGot_outCap (v : Nat) : (s.setGot v).outCap = s.outCap := rfl
@[simp] theorem State.setGot_result (v : Nat) : (s.setGot v).result = s.result := rfl
@[simp] theorem State.setGot_status (v : Nat) : (s.setGot v).status = s.status := rfl
@[simp] theorem State.setGot_errInfo (v : Nat) : (s.setGot v).errInfo = s.errInfo := rfl
@[simp] theorem State.setGot_fwdRom (v : Nat) : (s.setGot v).fwdRom = s.fwdRom := rfl
@[simp] theorem State.setGot_revRom (v : Nat) : (s.setGot v).revRom = s.revRom := rfl
@[simp] theorem State.setGot_inBuf (v : Nat) : (s.setGot v).inBuf = s.inBuf := rfl
@[simp] theorem State.setGot_outBuf (v : Nat) : (s.setGot v).outBuf = s.outBuf := rfl
@[simp] theorem State.setGot_host (v : Nat) : (s.setGot v).host = { s.host with got := v } := rfl
@[simp] theorem State.setGot_freeIdx (v : Nat) : (s.setGot v).freeIdx = s.freeIdx := rfl

@[simp] theorem State.setTaken_cmd (bs : List Byte) : (s.setTaken bs).cmd = s.cmd := rfl
@[simp] theorem State.setTaken_arg (bs : List Byte) : (s.setTaken bs).arg = s.arg := rfl
@[simp] theorem State.setTaken_outCap (bs : List Byte) : (s.setTaken bs).outCap = s.outCap := rfl
@[simp] theorem State.setTaken_result (bs : List Byte) : (s.setTaken bs).result = s.result := rfl
@[simp] theorem State.setTaken_status (bs : List Byte) : (s.setTaken bs).status = s.status := rfl
@[simp] theorem State.setTaken_errInfo (bs : List Byte) : (s.setTaken bs).errInfo = s.errInfo := rfl
@[simp] theorem State.setTaken_fwdRom (bs : List Byte) : (s.setTaken bs).fwdRom = s.fwdRom := rfl
@[simp] theorem State.setTaken_revRom (bs : List Byte) : (s.setTaken bs).revRom = s.revRom := rfl
@[simp] theorem State.setTaken_inBuf (bs : List Byte) : (s.setTaken bs).inBuf = s.inBuf := rfl
@[simp] theorem State.setTaken_outBuf (bs : List Byte) : (s.setTaken bs).outBuf = s.outBuf := rfl
@[simp] theorem State.setTaken_host (bs : List Byte) :
    (s.setTaken bs).host = { s.host with taken := bs } := rfl
@[simp] theorem State.setTaken_freeIdx (bs : List Byte) : (s.setTaken bs).freeIdx = s.freeIdx := rfl

@[simp] theorem resetBlock_cmd : (resetBlock s).cmd = .atReset 0 := rfl
@[simp] theorem resetBlock_arg : (resetBlock s).arg = .atReset 0 := rfl
@[simp] theorem resetBlock_outCap : (resetBlock s).outCap = .atReset 0 := rfl
@[simp] theorem resetBlock_result : (resetBlock s).result = .atReset 0 := rfl
@[simp] theorem resetBlock_status : (resetBlock s).status = .atReset 0 := rfl
@[simp] theorem resetBlock_errInfo : (resetBlock s).errInfo = .atReset 0 := rfl
@[simp] theorem resetBlock_fwdRom : (resetBlock s).fwdRom = fwdImage := rfl
@[simp] theorem resetBlock_revRom : (resetBlock s).revRom = revImage := rfl
@[simp] theorem resetBlock_inBuf : (resetBlock s).inBuf = s.inBuf := rfl
@[simp] theorem resetBlock_outBuf : (resetBlock s).outBuf = s.outBuf := rfl
@[simp] theorem resetBlock_host : (resetBlock s).host = s.host := rfl
@[simp] theorem resetBlock_freeIdx : (resetBlock s).freeIdx = s.freeIdx := rfl

end

end Sys2Proof.Machine
end

