-- ==== Sys2Proof/Laws/Ops.lean ====
section
/-! SUPPORT. What the shared operations say: the width check, the operand checks in both directions,
the two table lookups, and the status word. -/

namespace Sys2Proof.Machine

/-! ## The width check -/

/-- The bit-length form of the width check is the spec's `v < 2^W_LEN`. -/
theorem fitsLen_iff (v : Nat) : fitsLen v = true ↔ v < 2 ^ Config.wLen := by
  unfold fitsLen
  rcases Nat.eq_zero_or_pos v with rfl | h
  · simp [Config.wLen]
  · rw [decide_eq_true_iff, Nat.log2_lt (Nat.pos_iff_ne_zero.mp h)]

/-- W_LEN is at least 16 (00_scope.md R7). -/
theorem width_at_least_16 : 2 ^ 16 ≤ 2 ^ Config.wLen :=
  Nat.pow_le_pow_right (by decide) (by unfold Config.wLen; omega)

theorem withWidth_fits {v : Nat} (h : v < 2 ^ Config.wLen) (k : Result) : withWidth v k = k := by
  rw [withWidth, if_pos ((fitsLen_iff v).mpr h)]

theorem withWidth_refused {v : Nat} (h : 2 ^ Config.wLen ≤ v) (k : Result) :
    withWidth v k = .refused .width := by
  rw [withWidth, if_neg (by rw [fitsLen_iff]; omega)]

theorem withWidth_next {v : Nat} {k : Result} {t : State} (h : withWidth v k = .next t) :
    v < 2 ^ Config.wLen ∧ k = .next t := by
  unfold withWidth at h
  split at h
  · exact ⟨(fitsLen_iff v).mp ‹_›, h⟩
  · cases h

/-! ## The operand checks -/

theorem withOperand_written {r : Reg Nat} (h : r.written = true) (k : Nat → Result) :
    withOperand r k = k r.value := by
  rw [withOperand, if_pos h]

theorem withOperand_unwritten {r : Reg Nat} (h : r.written = false) (k : Nat → Result) :
    withOperand r k = .fault .unwrittenRead := by
  rw [withOperand, if_neg (by simp [h])]

theorem withOperand_next {r : Reg Nat} {k : Nat → Result} {t : State}
    (h : withOperand r k = .next t) : r.written = true ∧ k r.value = .next t := by
  unfold withOperand at h
  split at h
  · exact ⟨‹_›, h⟩
  · cases h

theorem withInput_some {m : Memory} {n : Nat} {bs : List Byte} (h : inputBytes m n = some bs)
    (k : List Byte → Result) : withInput m n k = k bs := by
  rw [withInput, h]

theorem withInput_overrun {m : Memory} {n : Nat} (h : memSize m < n) (k : List Byte → Result) :
    withInput m n k = .fault .inOverrun := by
  rw [withInput, inputBytes_none h]

theorem withInput_next {m : Memory} {n : Nat} {k : List Byte → Result} {t : State}
    (h : withInput m n k = .next t) : ∃ bs, inputBytes m n = some bs ∧ k bs = .next t := by
  unfold withInput at h
  split at h
  · cases h
  · exact ⟨_, ‹_›, h⟩

theorem withCapacity_fits {m : Memory} {cap : Nat} (h : cap ≤ memSize m) (k : Result) :
    withCapacity m cap k = k := by
  rw [withCapacity, if_pos h]

theorem withCapacity_overrun {m : Memory} {cap : Nat} (h : memSize m < cap) (k : Result) :
    withCapacity m cap k = .fault .outOverrun := by
  rw [withCapacity, if_neg (by omega)]

theorem withCapacity_next {m : Memory} {cap : Nat} {k : Result} {t : State}
    (h : withCapacity m cap k = .next t) : cap ≤ memSize m ∧ k = .next t := by
  unfold withCapacity at h
  split at h
  · exact ⟨‹_›, h⟩
  · cases h

/-! ## The tables -/

/-- The closed form of the forward table (10_state.md R29). -/
theorem fwdLookup_fwdImage (i : CodePoint) :
    (fwdLookup fwdImage i).toNat = if i.toNat < 26 then 0x41 + i.toNat else 0x32 + (i.toNat - 26) := by
  revert i
  decide

/-- The closed form of the reverse table (10_state.md R31). -/
theorem revEntry_revImage (b : Byte) :
    (revEntry revImage b).toNat =
      if 0x41 ≤ b.toNat ∧ b.toNat ≤ 0x5A then b.toNat - 0x41
      else if 0x32 ≤ b.toNat ∧ b.toNat ≤ 0x37 then b.toNat - 0x32 + 26
      else sentinel.toNat := by
  revert b
  decide

/-- Looking a symbol of the alphabet up gives its code point back (10_state.md R32). -/
theorem revLookup_fwdLookup (i : CodePoint) :
    revLookup revImage (fwdLookup fwdImage i) = some i := by
  revert i
  decide

/-- "a model states it as a theorem over the two constant tables" (10_state.md R32). A byte that the
reverse table gives a code point is that code point's symbol, so every other byte has the sentinel. -/
theorem romImages_consistent : tablesConsistent fwdImage revImage := by
  have back : ∀ b : Byte, revEntry revImage b = sentinel ∨
      fwdLookup fwdImage ((revEntry revImage b).extractLsb' 0 5) = b := by decide
  exact ⟨by decide, fun b hb => (back b).resolve_right (hb _)⟩

/-- The pad character is not a symbol (10_state.md R28). -/
theorem revLookup_padChar : revLookup revImage padChar = none := by decide

theorem fwdLookup_ne_padChar (i : CodePoint) : fwdLookup fwdImage i ≠ padChar := by
  revert i
  decide

/-! ## The status word -/

theorem statusErr_statusWord (c : BitVec 4) : statusErr (statusWord c) = c := by
  revert c
  decide

theorem statusRsv_statusWord (c : BitVec 4) : statusRsv (statusWord c) = 0 := by
  revert c
  decide

theorem errorCode_bounds (e : ErrorKind) : errorCode e ≠ 0 ∧ (errorCode e).toNat ≤ 5 := by
  cases e <;> decide

end Sys2Proof.Machine
end

