-- ==== Sys2Proof/Laws/Encoder.lean ====
section
/-! SUPPORT. The laws of the encoder: the closed forms of the size, the length and each byte of the
encoding, and everything ENCSZ and ENC can answer. -/

namespace Sys2Proof.Machine

/-! ## The encoded size (41_encode.md R72) -/

theorem tailSymbols_eq {r : Nat} (h : r < 5) : tailSymbols r = (8 * r + 4) / 5 := by
  revert r
  decide

theorem tailSymbols_le (r : Nat) : tailSymbols r ≤ 8 := by
  unfold tailSymbols
  split <;> decide

theorem encSize_unpadded (n : Nat) : encSize n false = 8 * (n / 5) + tailSymbols (n % 5) := by
  rw [tailSymbols_eq (Nat.mod_lt n (by decide)), encSize]
  split
  · omega
  · rw [if_neg (by decide)]
    omega

theorem encSize_padded (n : Nat) : encSize n true = 8 * ((n + 4) / 5) := by
  rw [encSize]
  split <;> simp <;> omega

theorem encSize_le (n : Nat) (pad : Bool) : encSize n pad ≤ 8 * n + 4 := by
  cases pad
  · rw [encSize_unpadded, tailSymbols_eq (Nat.mod_lt n (by decide))]
    omega
  · rw [encSize_padded]
    omega

theorem encSize_add_five (n : Nat) (pad : Bool) : encSize (n + 5) pad = 8 + encSize n pad := by
  cases pad
  · rw [encSize_unpadded, encSize_unpadded, Nat.add_mod_right]
    omega
  · rw [encSize_padded, encSize_padded]
    omega

/-! ## The shape of the recursion -/

/-- A list is a full group of five and a rest, or shorter than five. -/
theorem five_or_short {α : Type} (bs : List α) :
    (∃ b₀ b₁ b₂ b₃ b₄ rest, bs = b₀ :: b₁ :: b₂ :: b₃ :: b₄ :: rest) ∨ bs.length < 5 := by
  match bs with
  | [] | [_] | [_, _] | [_, _, _] | [_, _, _, _] => exact .inr (by simp)
  | b₀ :: b₁ :: b₂ :: b₃ :: b₄ :: rest => exact .inl ⟨b₀, b₁, b₂, b₃, b₄, rest, rfl⟩

/-- Induction on a list by groups of five. -/
theorem groups_of_five {α : Type} {P : List α → Prop}
    (short : ∀ bs, bs.length < 5 → P bs)
    (group : ∀ b₀ b₁ b₂ b₃ b₄ rest, P rest → P (b₀ :: b₁ :: b₂ :: b₃ :: b₄ :: rest)) :
    ∀ bs, P bs := by
  intro bs
  induction h : bs.length using Nat.strongRecOn generalizing bs with
  | ind n ih =>
    rcases five_or_short bs with ⟨b₀, b₁, b₂, b₃, b₄, rest, rfl⟩ | hs
    · exact group b₀ b₁ b₂ b₃ b₄ rest (ih rest.length (by simp at h; omega) rest rfl)
    · exact short bs hs

theorem encodeBytes_group (rom : Vector Byte 32) (pad : Bool) (b₀ b₁ b₂ b₃ b₄ : Byte)
    (rest : List Byte) :
    encodeBytes rom pad (b₀ :: b₁ :: b₂ :: b₃ :: b₄ :: rest) =
      encodeGroup rom b₀ b₁ b₂ b₃ b₄ ++ encodeBytes rom pad rest := by
  rw [encodeBytes]

theorem encodeBytes_short (rom : Vector Byte 32) (pad : Bool) {bs : List Byte}
    (h : bs.length < 5) (h0 : bs ≠ []) : encodeBytes rom pad bs = encodeTail rom pad bs := by
  match bs, h, h0 with
  | [_], _, _ | [_, _], _, _ | [_, _, _], _, _ | [_, _, _, _], _, _ => rw [encodeBytes] <;> simp

@[simp] theorem symbolsOf_length (rom : Vector Byte 32) (acc : Accumulator) (count : Nat) :
    (symbolsOf rom acc count).length = count := by
  simp [symbolsOf]

theorem encodeGroup_length (rom : Vector Byte 32) (b₀ b₁ b₂ b₃ b₄ : Byte) :
    (encodeGroup rom b₀ b₁ b₂ b₃ b₄).length = 8 := symbolsOf_length _ _ _

theorem encodeTail_length (rom : Vector Byte 32) (pad : Bool) (bs : List Byte) :
    (encodeTail rom pad bs).length = if pad then 8 else tailSymbols bs.length := by
  have := tailSymbols_le bs.length
  cases pad <;> simp [encodeTail]
  omega

/-- ENC writes exactly EncSize(n, pad) bytes (41_encode.md R77). -/
theorem encodeBytes_length (rom : Vector Byte 32) (pad : Bool) (bs : List Byte) :
    (encodeBytes rom pad bs).length = encSize bs.length pad := by
  induction bs using groups_of_five with
  | short bs h =>
    by_cases h0 : bs = []
    · subst h0
      cases pad <;> rfl
    · have hpos : 0 < bs.length := List.length_pos_iff.mpr h0
      rw [encodeBytes_short rom pad h h0, encodeTail_length]
      generalize bs.length = n at h hpos
      cases pad
      · rw [encSize_unpadded, Nat.mod_eq_of_lt h]
        simp
        omega
      · rw [encSize_padded]
        simp
        omega
  | group b₀ b₁ b₂ b₃ b₄ rest ih =>
    rw [encodeBytes_group, List.length_append, encodeGroup_length, ih]
    exact (encSize_add_five rest.length pad).symm

/-! ## Each byte of the encoding -/

/-- The accumulator of group `g`: bytes 5g to 5g + 4, with zero where there is none
(41_encode.md R74, R75). -/
def groupAcc (bs : List Byte) (g : Nat) : Accumulator :=
  packBytes (bs.getD (5 * g) 0) (bs.getD (5 * g + 1) 0) (bs.getD (5 * g + 2) 0)
    (bs.getD (5 * g + 3) 0) (bs.getD (5 * g + 4) 0)

theorem groupAcc_succ (b₀ b₁ b₂ b₃ b₄ : Byte) (rest : List Byte) (g : Nat) :
    groupAcc (b₀ :: b₁ :: b₂ :: b₃ :: b₄ :: rest) (g + 1) = groupAcc rest g := by
  have e0 : 5 * (g + 1) = 5 * g + 1 + 1 + 1 + 1 + 1 := by omega
  simp only [groupAcc, e0, List.getD_cons_succ]

theorem symbolsOf_getElem? (rom : Vector Byte 32) (acc : Accumulator) {count j : Nat}
    (h : j < count) : (symbolsOf rom acc count)[j]? = some (fwdLookup rom (codeSlice acc j)) := by
  simp [symbolsOf, h]

/-- How many symbols, pad characters apart, the encoding of `n` bytes has (41_encode.md R72). -/
def dataSymbols (n : Nat) : Nat := 8 * (n / 5) + tailSymbols (n % 5)

/-- Byte `k` of the encoding is the symbol of slice `k mod 8` of group `k div 8`, up to the last data
symbol (41_encode.md R74, R75). -/
theorem encodeBytes_symbol (rom : Vector Byte 32) (pad : Bool) (bs : List Byte) {k : Nat}
    (h : k < dataSymbols bs.length) :
    (encodeBytes rom pad bs)[k]? = some (fwdLookup rom (codeSlice (groupAcc bs (k / 8)) (k % 8))) := by
  induction bs using groups_of_five generalizing k with
  | short bs hs =>
    have h0 : bs ≠ [] := by
      rintro rfl
      simp [dataSymbols, tailSymbols] at h
    have hk : k < tailSymbols bs.length := by
      rw [dataSymbols, Nat.mod_eq_of_lt hs] at h
      omega
    have h8 := tailSymbols_le bs.length
    rw [encodeBytes_short rom pad hs h0, encodeTail, List.getElem?_append_left (by simpa using hk),
      symbolsOf_getElem? _ _ hk, Nat.div_eq_of_lt (by omega), Nat.mod_eq_of_lt (by omega)]
    rfl
  | group b₀ b₁ b₂ b₃ b₄ rest ih =>
    rw [encodeBytes_group]
    by_cases hk : k < 8
    · rw [List.getElem?_append_left (by rw [encodeGroup_length]; exact hk), encodeGroup,
        symbolsOf_getElem? _ _ hk, Nat.div_eq_of_lt hk, Nat.mod_eq_of_lt hk]
      rfl
    · have hd : dataSymbols (b₀ :: b₁ :: b₂ :: b₃ :: b₄ :: rest).length =
          8 + dataSymbols rest.length := by
        simp only [dataSymbols, List.length_cons, Nat.add_assoc, Nat.reduceAdd, Nat.add_mod_right]
        omega
      rw [List.getElem?_append_right (by rw [encodeGroup_length]; omega), encodeGroup_length,
        ih (by omega)]
      have e8 : k = k - 8 + 8 := by omega
      have eg : k / 8 = (k - 8) / 8 + 1 := by omega
      have em : k % 8 = (k - 8) % 8 := by omega
      rw [eg, em, groupAcc_succ]

/-- Past the data symbols the encoding holds pad characters (41_encode.md R75). -/
theorem encodeBytes_pad (rom : Vector Byte 32) (pad : Bool) (bs : List Byte) {k : Nat}
    (hd : dataSymbols bs.length ≤ k) (hk : k < encSize bs.length pad) :
    (encodeBytes rom pad bs)[k]? = some padChar := by
  induction bs using groups_of_five generalizing k with
  | short bs hs =>
    have h0 : bs ≠ [] := by
      rintro rfl
      simp [encSize] at hk
    cases pad with
    | false =>
      rw [encSize_unpadded] at hk
      rw [dataSymbols] at hd
      omega
    | true =>
      have hpos : 0 < bs.length := List.length_pos_iff.mpr h0
      rw [encSize_padded] at hk
      rw [dataSymbols, Nat.mod_eq_of_lt hs] at hd
      have h8 := tailSymbols_le bs.length
      rw [encodeBytes_short rom true hs h0, encodeTail,
        List.getElem?_append_right (by rw [symbolsOf_length]; omega), symbolsOf_length,
        if_pos rfl, List.getElem?_replicate_of_lt (by omega)]
  | group b₀ b₁ b₂ b₃ b₄ rest ih =>
    have hl : (b₀ :: b₁ :: b₂ :: b₃ :: b₄ :: rest).length = rest.length + 5 := rfl
    have hd' : dataSymbols (rest.length + 5) = 8 + dataSymbols rest.length := by
      simp only [dataSymbols, Nat.add_mod_right]
      omega
    rw [hl, hd'] at hd
    rw [hl, encSize_add_five] at hk
    rw [encodeBytes_group, List.getElem?_append_right (by rw [encodeGroup_length]; omega),
      encodeGroup_length, ih (by omega) (by omega)]

/-! ## Everything ENCSZ and ENC can answer -/

/-- ENCSZ answers a next state in one way only (41_encode.md R73). -/
theorem execEncsz_next {pad : Bool} {s t : State} (h : execEncsz pad s = .next t) :
    s.arg.written = true ∧ 8 * s.arg.value + 4 < 2 ^ Config.wLen ∧
      t = complete (s.setResult (encSize s.arg.value pad)) := by
  obtain ⟨ha, h⟩ := withOperand_next h
  obtain ⟨hw, h⟩ := withWidth_next h
  cases h
  exact ⟨ha, hw, rfl⟩

/-- ENC answers a next state in one way only (41_encode.md R76). -/
theorem execEnc_next {pad : Bool} {s t : State} (h : execEnc pad s = .next t) :
    ∃ input, s.arg.written = true ∧ s.outCap.written = true ∧
      inputBytes s.inBuf s.arg.value = some input ∧ s.outCap.value ≤ memSize s.outBuf ∧
      8 * s.arg.value + 4 < 2 ^ Config.wLen ∧ encSize s.arg.value pad ≤ s.outCap.value ∧
      t = complete ((s.storeOut (encodeBytes s.fwdRom pad input)).setResult
        (encSize s.arg.value pad)) := by
  obtain ⟨ha, h⟩ := withOperand_next h
  obtain ⟨ho, h⟩ := withOperand_next h
  obtain ⟨input, hi, h⟩ := withInput_next h
  obtain ⟨hc, h⟩ := withCapacity_next h
  obtain ⟨hw, h⟩ := withWidth_next h
  split at h
  · cases h
  · cases h
    exact ⟨input, ha, ho, hi, hc, hw, by omega, rfl⟩

/-- When every check passes, ENC answers the encoding (41_encode.md R76). -/
theorem execEnc_runs {pad : Bool} {s : State} {input : List Byte} (ha : s.arg.written = true)
    (ho : s.outCap.written = true) (hi : inputBytes s.inBuf s.arg.value = some input)
    (hc : s.outCap.value ≤ memSize s.outBuf) (hw : 8 * s.arg.value + 4 < 2 ^ Config.wLen)
    (hs : encSize s.arg.value pad ≤ s.outCap.value) :
    execEnc pad s = .next (complete ((s.storeOut (encodeBytes s.fwdRom pad input)).setResult
      (encSize s.arg.value pad))) := by
  rw [execEnc, withOperand_written ha, withOperand_written ho, withInput_some hi,
    withCapacity_fits hc, withWidth_fits hw, if_neg (by omega)]

end Sys2Proof.Machine
end

