-- ==== Sys2Proof/Laws/Decoder.lean ====
section
/-! SUPPORT. The laws of the decoder: the pad run, the decoded size, the symbol lookup, each byte of the
decoding, everything DECSZ and DEC can answer, and that decoding undoes encoding. -/

namespace Sys2Proof.Machine

/-! ## The pad run (42_decode.md R79) -/

/-- `t` is the length of the maximal run of `=` that ends these bytes. -/
def EndsInRun (bs : List Byte) (t : Nat) : Prop :=
  t ≤ bs.length ∧ (∀ j < t, bs[bs.length - 1 - j]? = some padChar) ∧
    (t < bs.length → bs[bs.length - 1 - t]? ≠ some padChar)

theorem takeWhile_length_spec {α : Type} (p : α → Bool) (l : List α) :
    (l.takeWhile p).length ≤ l.length ∧
      (∀ j < (l.takeWhile p).length, ∃ x, l[j]? = some x ∧ p x = true) ∧
      (∀ x, l[(l.takeWhile p).length]? = some x → p x = false) := by
  induction l with
  | nil => simp
  | cons a l ih =>
    obtain ⟨h1, h2, h3⟩ := ih
    cases hp : p a with
    | false => simp [hp]
    | true =>
      simp only [List.takeWhile_cons, hp, if_true, List.length_cons]
      refine ⟨by omega, fun j hj => ?_, fun x hx => h3 x (by simpa using hx)⟩
      cases j with
      | zero => exact ⟨a, rfl, hp⟩
      | succ j => simpa using h2 j (by omega)

theorem padRun_spec (bs : List Byte) : EndsInRun bs (padRun bs) := by
  obtain ⟨h1, h2, h3⟩ := takeWhile_length_spec (· == padChar) bs.reverse
  rw [List.length_reverse] at h1
  refine ⟨h1, fun j hj => ?_, fun hlt hc => ?_⟩
  · obtain ⟨x, hx, hp⟩ := h2 j hj
    have hjl : j < bs.length := Nat.lt_of_lt_of_le hj h1
    rw [List.getElem?_reverse hjl] at hx
    rw [hx, eq_of_beq hp]
  · have := h3 padChar ((List.getElem?_reverse hlt).trans hc)
    simp at this

/-- The maximal run has one length. -/
theorem EndsInRun.unique {bs : List Byte} {t u : Nat} (ht : EndsInRun bs t) (hu : EndsInRun bs u) :
    t = u := by
  rcases Nat.lt_trichotomy t u with h | h | h
  · exact absurd (hu.2.1 t h) (ht.2.2 (Nat.lt_of_lt_of_le h hu.1))
  · exact h
  · exact absurd (ht.2.1 u h) (hu.2.2 (Nat.lt_of_lt_of_le h ht.1))

theorem padRun_eq {bs : List Byte} {t : Nat} (h : EndsInRun bs t) : padRun bs = t :=
  (padRun_spec bs).unique h

/-- The counted padding is at most 6 characters, and never more than the input holds. -/
theorem padCount_bounds (bs : List Byte) :
    padCount bs ∈ [0, 1, 3, 4, 6] ∧ padCount bs ≤ bs.length := by
  have := (padRun_spec bs).1
  unfold padCount
  split
  · rename_i h
    exact ⟨List.mem_cons_of_mem 0 h, this⟩
  · simp

/-! ## The decoded size (42_decode.md R80) -/

theorem decLen_nil (pad : Bool) : decLen pad [] = .ok 0 0 := rfl

/-- The stripped length of an input whose length is accepted. -/
def strippedLength (bs : List Byte) : Nat :=
  if bs.length % 8 = 0 then bs.length - padCount bs else bs.length

/-- The lengths DecLen accepts: padded mode the multiples of 8, unpadded mode the remainders 0, 2, 4, 5
and 7 (42_decode.md R80; 60_exceptions.md R95). -/
def lengthAccepted (pad : Bool) (len : Nat) : Prop :=
  if pad then len % 8 = 0 else len % 8 ≠ 1 ∧ len % 8 ≠ 3 ∧ len % 8 ≠ 6

/-- DecLen in one equation for each outcome (42_decode.md R80). -/
theorem decLen_accepted {pad : Bool} {bs : List Byte} (h : lengthAccepted pad bs.length) :
    decLen pad bs = .ok (5 * strippedLength bs / 8) (strippedLength bs) := by
  unfold decLen strippedLength decLenOk
  unfold lengthAccepted at h
  by_cases h0 : bs.length = 0
  · simp [h0]
  · cases pad with
    | true =>
      simp only [if_true] at h
      simp [h0, h]
    | false =>
      simp only [Bool.false_eq_true, if_false] at h
      by_cases h8 : bs.length % 8 = 0 <;> simp [h0, h8, h]

theorem decLen_rejected {pad : Bool} {bs : List Byte} (h : ¬ lengthAccepted pad bs.length) :
    decLen pad bs = .invalid bs.length := by
  unfold decLen
  unfold lengthAccepted at h
  have h0 : bs.length ≠ 0 := by
    intro h0
    apply h
    rw [h0]
    cases pad <;> decide
  cases pad with
  | true =>
    simp only [if_true] at h
    simp [h0, h]
  | false =>
    simp only [Bool.false_eq_true, if_false] at h
    have : bs.length % 8 ∈ [1, 3, 6] := by
      simp only [List.mem_cons, List.not_mem_nil, or_false]
      omega
    simp only [h0, this, if_true, if_false, Bool.false_eq_true]

/-- What each outcome of DecLen says. -/
theorem decLen_cases (pad : Bool) (bs : List Byte) :
    (lengthAccepted pad bs.length ∧
        decLen pad bs = .ok (5 * strippedLength bs / 8) (strippedLength bs)) ∨
      (¬ lengthAccepted pad bs.length ∧ decLen pad bs = .invalid bs.length) := by
  by_cases h : lengthAccepted pad bs.length
  · exact .inl ⟨h, decLen_accepted h⟩
  · exact .inr ⟨h, decLen_rejected h⟩

theorem strippedLength_le (bs : List Byte) : strippedLength bs ≤ bs.length := by
  unfold strippedLength
  split <;> omega

/-- The stripped lengths DecLen can answer (42_decode.md R82). -/
theorem strippedLength_mod {pad : Bool} {bs : List Byte} (h : lengthAccepted pad bs.length) :
    strippedLength bs % 8 ∈ [0, 2, 4, 5, 7] := by
  have hp := padCount_bounds bs
  simp only [List.mem_cons, List.not_mem_nil, or_false] at hp ⊢
  unfold strippedLength
  unfold lengthAccepted at h
  split
  · omega
  · cases pad
    · simp only [Bool.false_eq_true, if_false] at h
      omega
    · simp only [if_true] at h
      omega

/-! ## The symbol lookup (42_decode.md R83) -/

/-- When every byte is a symbol, the lookup answers their code points in order. -/
theorem symbolValues_codes {rom : Vector Byte 256} {i : Nat} {bs : List Byte} {cs : List CodePoint}
    (h : symbolValues rom i bs = .codes cs) :
    cs.length = bs.length ∧ ∀ (j : Nat) (b : Byte), bs[j]? = some b → revLookup rom b = cs[j]? := by
  induction bs generalizing i cs with
  | nil =>
    cases h
    simp
  | cons b bs ih =>
    rw [symbolValues] at h
    cases hb : revLookup rom b with
    | none => simp [hb] at h
    | some c =>
      cases hs : symbolValues rom (i + 1) bs with
      | bad j => simp [hb, hs] at h
      | codes ds =>
        have e : c :: ds = cs := by simpa [hb, hs] using h
        subst e
        obtain ⟨hl, hg⟩ := ih hs
        refine ⟨by simp [hl], fun j x hx => ?_⟩
        cases j with
        | zero =>
          have : b = x := by simpa using hx
          subst this
          simpa using hb
        | succ j => simpa using hg j x (by simpa using hx)

/-- When some byte is not a symbol, the lookup answers the lowest index of one. -/
theorem symbolValues_bad {rom : Vector Byte 256} {i k : Nat} {bs : List Byte}
    (h : symbolValues rom i bs = .bad k) :
    ∃ j b, k = i + j ∧ bs[j]? = some b ∧ revLookup rom b = none ∧
      ∀ j' < j, ∀ b' : Byte, bs[j']? = some b' → (revLookup rom b').isSome = true := by
  induction bs generalizing i with
  | nil => cases h
  | cons b bs ih =>
    rw [symbolValues] at h
    cases hb : revLookup rom b with
    | none =>
      have : i = k := by simpa [hb] using h
      exact ⟨0, b, by omega, rfl, hb, fun j' hj' => absurd hj' (Nat.not_lt_zero j')⟩
    | some c =>
      cases hs : symbolValues rom (i + 1) bs with
      | codes ds => simp [hb, hs] at h
      | bad k' =>
        have e : k' = k := by simpa [hb, hs] using h
        subst e
        obtain ⟨j, x, hj, hx, hn, hlow⟩ := ih hs
        refine ⟨j + 1, x, by omega, by simpa using hx, hn, fun j' hj' b' hb' => ?_⟩
        cases j' with
        | zero =>
          have : b = b' := by simpa using hb'
          subst this
          simp [hb]
        | succ j' => exact hlow j' (by omega) b' (by simpa using hb')

/-- The lookup answers code points exactly when every byte is a symbol. -/
theorem symbolValues_all {rom : Vector Byte 256} (i : Nat) {bs : List Byte}
    (h : ∀ (j : Nat) (b : Byte), bs[j]? = some b → (revLookup rom b).isSome = true) :
    ∃ cs, symbolValues rom i bs = .codes cs := by
  cases hs : symbolValues rom i bs with
  | codes cs => exact ⟨cs, rfl⟩
  | bad k =>
    obtain ⟨j, b, -, hb, hn, -⟩ := symbolValues_bad hs
    have := h j b hb
    simp [hn] at this

/-- The lookup answers index `i + j` exactly when byte `j` is the first that is no symbol. -/
theorem symbolValues_first {rom : Vector Byte 256} (i : Nat) {bs : List Byte} {j : Nat} {b : Byte}
    (hb : bs[j]? = some b) (hn : revLookup rom b = none)
    (hlow : ∀ j' < j, ∀ b' : Byte, bs[j']? = some b' → (revLookup rom b').isSome = true) :
    symbolValues rom i bs = .bad (i + j) := by
  cases hs : symbolValues rom i bs with
  | codes cs =>
    obtain ⟨hl, hg⟩ := symbolValues_codes hs
    have hlt : j < bs.length := (List.getElem?_eq_some_iff.mp hb).1
    have := hg j b hb
    rw [hn, List.getElem?_eq_getElem (by omega)] at this
    cases this
  | bad k =>
    obtain ⟨j₁, b₁, hk, hb₁, hn₁, hlow₁⟩ := symbolValues_bad hs
    rcases Nat.lt_trichotomy j j₁ with h | h | h
    · have := hlow₁ j h b hb
      simp [hn] at this
    · rw [hk, h]
    · have := hlow j₁ h b₁ hb₁
      simp [hn₁] at this

/-! ## Each byte of the decoding (42_decode.md R84, R85) -/

theorem eight_or_short {α : Type} (cs : List α) :
    (∃ c₀ c₁ c₂ c₃ c₄ c₅ c₆ c₇ rest,
        cs = c₀ :: c₁ :: c₂ :: c₃ :: c₄ :: c₅ :: c₆ :: c₇ :: rest) ∨ cs.length < 8 := by
  match cs with
  | [] | [_] | [_, _] | [_, _, _] | [_, _, _, _] | [_, _, _, _, _] | [_, _, _, _, _, _]
  | [_, _, _, _, _, _, _] => exact .inr (by simp)
  | c₀ :: c₁ :: c₂ :: c₃ :: c₄ :: c₅ :: c₆ :: c₇ :: rest =>
    exact .inl ⟨c₀, c₁, c₂, c₃, c₄, c₅, c₆, c₇, rest, rfl⟩

/-- Induction on a list by groups of eight. -/
theorem groups_of_eight {α : Type} {P : List α → Prop}
    (short : ∀ cs, cs.length < 8 → P cs)
    (group : ∀ c₀ c₁ c₂ c₃ c₄ c₅ c₆ c₇ rest, P rest →
      P (c₀ :: c₁ :: c₂ :: c₃ :: c₄ :: c₅ :: c₆ :: c₇ :: rest)) : ∀ cs, P cs := by
  intro cs
  induction h : cs.length using Nat.strongRecOn generalizing cs with
  | ind n ih =>
    rcases eight_or_short cs with ⟨c₀, c₁, c₂, c₃, c₄, c₅, c₆, c₇, rest, rfl⟩ | hs
    · exact group c₀ c₁ c₂ c₃ c₄ c₅ c₆ c₇ rest (ih rest.length (by simp at h; omega) rest rfl)
    · exact short cs hs

theorem decodeCodes_group (c₀ c₁ c₂ c₃ c₄ c₅ c₆ c₇ : CodePoint) (rest : List CodePoint) :
    decodeCodes (c₀ :: c₁ :: c₂ :: c₃ :: c₄ :: c₅ :: c₆ :: c₇ :: rest) =
      decodeGroup c₀ c₁ c₂ c₃ c₄ c₅ c₆ c₇ ++ decodeCodes rest := by
  rw [decodeCodes]

theorem decodeCodes_short {cs : List CodePoint} (h : cs.length < 8) :
    decodeCodes cs = decodeTail cs := by
  match cs, h with
  | [], _ => rfl
  | [_], _ | [_, _], _ | [_, _, _], _ | [_, _, _, _], _ | [_, _, _, _, _], _
  | [_, _, _, _, _, _], _ | [_, _, _, _, _, _, _], _ => rw [decodeCodes] <;> simp

@[simp] theorem bytesOf_length (acc : Accumulator) (count : Nat) :
    (bytesOf acc count).length = count := by
  simp [bytesOf]

theorem bytesOf_getElem? (acc : Accumulator) {count k : Nat} (h : k < count) :
    (bytesOf acc count)[k]? = some (byteSlice acc k) := by
  simp [bytesOf, h]

theorem decodeGroup_length (c₀ c₁ c₂ c₃ c₄ c₅ c₆ c₇ : CodePoint) :
    (decodeGroup c₀ c₁ c₂ c₃ c₄ c₅ c₆ c₇).length = 5 := bytesOf_length _ _

theorem tailBytes_le (e : Nat) : tailBytes e ≤ 4 := by
  unfold tailBytes
  split <;> decide

/-- How many bytes `n` code points decode to (42_decode.md R82). -/
def decodedBytes (n : Nat) : Nat := 5 * (n / 8) + tailBytes (n % 8)

theorem decodedBytes_add_eight (n : Nat) : decodedBytes (n + 8) = 5 + decodedBytes n := by
  simp only [decodedBytes, Nat.add_mod_right]
  omega

/-- For the lengths DecLen can answer, that is `(5 * L') div 8` (42_decode.md R82). -/
theorem decodedBytes_eq {n : Nat} (h : n % 8 ∈ [0, 2, 4, 5, 7]) : decodedBytes n = 5 * n / 8 := by
  have ht : tailBytes (n % 8) = 5 * (n % 8) / 8 := by
    revert h
    generalize n % 8 = e
    intro h
    simp only [List.mem_cons, List.not_mem_nil, or_false] at h
    rcases h with rfl | rfl | rfl | rfl | rfl <;> rfl
  rw [decodedBytes, ht]
  omega

theorem decodeCodes_length (cs : List CodePoint) :
    (decodeCodes cs).length = decodedBytes cs.length := by
  induction cs using groups_of_eight with
  | short cs h =>
    rw [decodeCodes_short h, decodeTail, bytesOf_length, decodedBytes, Nat.div_eq_of_lt h,
      Nat.mod_eq_of_lt h]
    omega
  | group c₀ c₁ c₂ c₃ c₄ c₅ c₆ c₇ rest ih =>
    rw [decodeCodes_group, List.length_append, decodeGroup_length, ih]
    exact (decodedBytes_add_eight rest.length).symm

/-- The accumulator of group `g`: code points 8g to 8g + 7, with zero where there is none
(42_decode.md R84, R85). -/
def codesAcc (cs : List CodePoint) (g : Nat) : Accumulator :=
  packCodes (cs.getD (8 * g) 0) (cs.getD (8 * g + 1) 0) (cs.getD (8 * g + 2) 0)
    (cs.getD (8 * g + 3) 0) (cs.getD (8 * g + 4) 0) (cs.getD (8 * g + 5) 0)
    (cs.getD (8 * g + 6) 0) (cs.getD (8 * g + 7) 0)

theorem codesAcc_succ (c₀ c₁ c₂ c₃ c₄ c₅ c₆ c₇ : CodePoint) (rest : List CodePoint) (g : Nat) :
    codesAcc (c₀ :: c₁ :: c₂ :: c₃ :: c₄ :: c₅ :: c₆ :: c₇ :: rest) (g + 1) = codesAcc rest g := by
  have e : 8 * (g + 1) = 8 * g + 1 + 1 + 1 + 1 + 1 + 1 + 1 + 1 := by omega
  simp only [codesAcc, e, List.getD_cons_succ]

/-- Byte `k` of the decoding is slice `k mod 5` of group `k div 5` (42_decode.md R84, R85). -/
theorem decodeCodes_byte (cs : List CodePoint) {k : Nat} (h : k < decodedBytes cs.length) :
    (decodeCodes cs)[k]? = some (byteSlice (codesAcc cs (k / 5)) (k % 5)) := by
  induction cs using groups_of_eight generalizing k with
  | short cs hs =>
    have h4 := tailBytes_le cs.length
    rw [decodedBytes, Nat.div_eq_of_lt hs, Nat.mod_eq_of_lt hs] at h
    rw [decodeCodes_short hs, decodeTail, bytesOf_getElem? _ (by omega),
      Nat.div_eq_of_lt (by omega), Nat.mod_eq_of_lt (by omega)]
    rfl
  | group c₀ c₁ c₂ c₃ c₄ c₅ c₆ c₇ rest ih =>
    rw [decodeCodes_group]
    by_cases hk : k < 5
    · rw [List.getElem?_append_left (by rw [decodeGroup_length]; exact hk), decodeGroup,
        bytesOf_getElem? _ hk, Nat.div_eq_of_lt hk, Nat.mod_eq_of_lt hk]
      rfl
    · have hl : (c₀ :: c₁ :: c₂ :: c₃ :: c₄ :: c₅ :: c₆ :: c₇ :: rest).length = rest.length + 8 := rfl
      rw [hl, decodedBytes_add_eight] at h
      have eg : k / 5 = (k - 5) / 5 + 1 := by omega
      have em : k % 5 = (k - 5) % 5 := by omega
      rw [List.getElem?_append_right (by rw [decodeGroup_length]; omega), decodeGroup_length,
        ih (by omega), eg, em, codesAcc_succ]

/-! ## Everything DECSZ and DEC can answer -/

/-- DECSZ answers a next state in two ways only (42_decode.md R81). -/
theorem execDecsz_next {pad : Bool} {s t : State} (h : execDecsz pad s = .next t) :
    ∃ input, s.arg.written = true ∧ inputBytes s.inBuf s.arg.value = some input ∧
      5 * s.arg.value < 2 ^ Config.wLen ∧
      ((¬ lengthAccepted pad s.arg.value ∧
          t = raiseError .invalidInputLength s.arg.value s) ∨
        (lengthAccepted pad s.arg.value ∧
          t = complete ((s.setArg (strippedLength input)).setResult
            (5 * strippedLength input / 8)))) := by
  obtain ⟨ha, h⟩ := withOperand_next h
  obtain ⟨input, hi, h⟩ := withInput_next h
  obtain ⟨hw, h⟩ := withWidth_next h
  have hl := (inputBytes_spec hi).2.1
  refine ⟨input, ha, hi, hw, ?_⟩
  rcases decLen_cases pad input with ⟨hacc, hd⟩ | ⟨hrej, hd⟩
  · rw [hd] at h
    cases h
    exact .inr ⟨hl ▸ hacc, rfl⟩
  · rw [hd] at h
    cases h
    exact .inl ⟨hl ▸ hrej, by rw [hl]⟩

/-- What DEC does once its checks have passed (42_decode.md R87). -/
def decOutcome (pad : Bool) (input : List Byte) (s : State) : State :=
  match decLen pad input with
  | .invalid len => raiseInDec .invalidInputLength len s.outCap.value s
  | .ok size stripped =>
    if s.outCap.value < size then raiseInDec .outputTooSmall size s.outCap.value s
    else
      match symbolValues s.revRom 0 (input.take stripped) with
      | .bad index => raiseInDec .invalidCharacter index s.outCap.value s
      | .codes cs => complete ((s.storeOut (decodeCodes cs)).setResult size)

/-- When every check passes, DEC answers that state. -/
theorem execDec_runs {pad : Bool} {s : State} {input : List Byte} (ha : s.arg.written = true)
    (ho : s.outCap.written = true) (hi : inputBytes s.inBuf s.arg.value = some input)
    (hc : s.outCap.value ≤ memSize s.outBuf) (hw : 5 * s.arg.value < 2 ^ Config.wLen) :
    execDec pad s = .next (decOutcome pad input s) := by
  rw [execDec, withOperand_written ha, withOperand_written ho, withInput_some hi,
    withCapacity_fits hc, withWidth_fits hw, decOutcome]
  cases decLen pad input with
  | invalid len => rfl
  | ok size stripped =>
    dsimp only
    split
    · rfl
    · cases symbolValues s.revRom 0 (input.take stripped) <;> rfl

/-- DEC answers a next state only when its checks pass, and then that state. -/
theorem execDec_next {pad : Bool} {s t : State} (h : execDec pad s = .next t) :
    ∃ input, s.arg.written = true ∧ s.outCap.written = true ∧
      inputBytes s.inBuf s.arg.value = some input ∧ s.outCap.value ≤ memSize s.outBuf ∧
      5 * s.arg.value < 2 ^ Config.wLen ∧ t = decOutcome pad input s := by
  have h' := h
  obtain ⟨ha, h'⟩ := withOperand_next h'
  obtain ⟨ho, h'⟩ := withOperand_next h'
  obtain ⟨input, hi, h'⟩ := withInput_next h'
  obtain ⟨hc, h'⟩ := withCapacity_next h'
  obtain ⟨hw, h'⟩ := withWidth_next h'
  rw [execDec_runs ha ho hi hc hw] at h
  cases h
  exact ⟨input, ha, ho, hi, hc, hw, rfl⟩

/-- The four outcomes of DEC (42_decode.md R87; 60_exceptions.md R102). -/
theorem decOutcome_cases (pad : Bool) (input : List Byte) (s : State) :
    (¬ lengthAccepted pad input.length ∧
        decOutcome pad input s =
          raiseInDec .invalidInputLength input.length s.outCap.value s) ∨
      (lengthAccepted pad input.length ∧ s.outCap.value < 5 * strippedLength input / 8 ∧
        decOutcome pad input s =
          raiseInDec .outputTooSmall (5 * strippedLength input / 8) s.outCap.value s) ∨
      (∃ index, lengthAccepted pad input.length ∧
        5 * strippedLength input / 8 ≤ s.outCap.value ∧
        symbolValues s.revRom 0 (input.take (strippedLength input)) = .bad index ∧
        decOutcome pad input s = raiseInDec .invalidCharacter index s.outCap.value s) ∨
      (∃ cs, lengthAccepted pad input.length ∧
        5 * strippedLength input / 8 ≤ s.outCap.value ∧
        symbolValues s.revRom 0 (input.take (strippedLength input)) = .codes cs ∧
        decOutcome pad input s =
          complete ((s.storeOut (decodeCodes cs)).setResult (5 * strippedLength input / 8))) := by
  rcases decLen_cases pad input with ⟨hacc, hd⟩ | ⟨hrej, hd⟩
  · by_cases hs : s.outCap.value < 5 * strippedLength input / 8
    · exact .inr (.inl ⟨hacc, hs, by rw [decOutcome, hd]; exact if_pos hs⟩)
    · cases hv : symbolValues s.revRom 0 (input.take (strippedLength input)) with
      | bad index =>
        refine .inr (.inr (.inl ⟨index, hacc, by omega, rfl, ?_⟩))
        simp [decOutcome, hd, hs, hv]
      | codes cs =>
        refine .inr (.inr (.inr ⟨cs, hacc, by omega, rfl, ?_⟩))
        simp [decOutcome, hd, hs, hv]
  · exact .inl ⟨hrej, by rw [decOutcome, hd]⟩

/-! ## Decoding undoes encoding -/

theorem symbolValues_append {rom : Vector Byte 256} {i : Nat} {as bs : List Byte}
    {cs ds : List CodePoint} (ha : symbolValues rom i as = .codes cs)
    (hb : symbolValues rom (i + as.length) bs = .codes ds) :
    symbolValues rom i (as ++ bs) = .codes (cs ++ ds) := by
  induction as generalizing i cs with
  | nil =>
    cases ha
    simpa using hb
  | cons a as ih =>
    rw [symbolValues] at ha
    cases hr : revLookup rom a with
    | none => simp [hr] at ha
    | some c =>
      cases hs : symbolValues rom (i + 1) as with
      | bad j => simp [hr, hs] at ha
      | codes es =>
        have e : c :: es = cs := by simpa [hr, hs] using ha
        subst e
        have hb' : symbolValues rom (i + 1 + as.length) bs = .codes ds := by
          rw [← hb, List.length_cons]
          congr 1
          omega
        rw [List.cons_append, symbolValues, hr]
        simp [ih hs hb']

/-- The symbols the encoder emits look up to the slices they came from (10_state.md R32). -/
theorem symbolValues_symbolsOf (i : Nat) (acc : Accumulator) (count : Nat) :
    symbolValues revImage i (symbolsOf fwdImage acc count) =
      .codes ((List.range count).map (codeSlice acc)) := by
  unfold symbolsOf
  generalize List.range count = js
  induction js generalizing i with
  | nil => rfl
  | cons j js ih =>
    rw [List.map_cons, symbolValues, revLookup_fwdLookup]
    simp [ih]

theorem decodeGroup_slices (b₀ b₁ b₂ b₃ b₄ : Byte) :
    let acc := packBytes b₀ b₁ b₂ b₃ b₄
    decodeGroup (codeSlice acc 0) (codeSlice acc 1) (codeSlice acc 2) (codeSlice acc 3)
      (codeSlice acc 4) (codeSlice acc 5) (codeSlice acc 6) (codeSlice acc 7) =
        [b₀, b₁, b₂, b₃, b₄] := by
  intro acc
  obtain ⟨h₀, h₁, h₂, h₃, h₄⟩ := byteSlice_packBytes b₀ b₁ b₂ b₃ b₄
  rw [decodeGroup, packCodes_slices, bytesOf]
  simp [List.range_succ, acc, h₀, h₁, h₂, h₃, h₄]

/-- Decoding the slices of a tail gives the tail back (41_encode.md R75; 42_decode.md R85). -/
theorem decodeTail_slices {bs : List Byte} (h : bs.length < 5) :
    decodeTail ((List.range (tailSymbols bs.length)).map
      (codeSlice (packBytes (bs.getD 0 0) (bs.getD 1 0) (bs.getD 2 0) (bs.getD 3 0) (bs.getD 4 0))))
        = bs := by
  match bs, h with
  | [], _ => rfl
  | [a], _ =>
    have hz := (codeSlice_tail_zero a 0 0 0).1
    have hp := packCodes_slices (packBytes a 0 0 0 0)
    rw [hz 2, hz 3, hz 4, hz 5, hz 6, hz 7] at hp <;> try decide
    have hb := byteSlice_packBytes a 0 0 0 0
    simp only [BitVec.ofNat_eq_ofNat] at hp hb
    simp [decodeTail, tailSymbols, tailBytes, List.range_succ, bytesOf, hp, hb]
  | [a, b], _ =>
    have hz := (codeSlice_tail_zero a b 0 0).2.1
    have hp := packCodes_slices (packBytes a b 0 0 0)
    rw [hz 4, hz 5, hz 6, hz 7] at hp <;> try decide
    have hb := byteSlice_packBytes a b 0 0 0
    simp only [BitVec.ofNat_eq_ofNat] at hp hb
    simp [decodeTail, tailSymbols, tailBytes, List.range_succ, bytesOf, hp, hb]
  | [a, b, c], _ =>
    have hz := (codeSlice_tail_zero a b c 0).2.2.1
    have hp := packCodes_slices (packBytes a b c 0 0)
    rw [hz 5, hz 6, hz 7] at hp <;> try decide
    have hb := byteSlice_packBytes a b c 0 0
    simp only [BitVec.ofNat_eq_ofNat] at hp hb
    simp [decodeTail, tailSymbols, tailBytes, List.range_succ, bytesOf, hp, hb]
  | [a, b, c, d], _ =>
    have hz := (codeSlice_tail_zero a b c d).2.2.2
    have hp := packCodes_slices (packBytes a b c d 0)
    rw [hz 7] at hp <;> try decide
    have hb := byteSlice_packBytes a b c d 0
    simp only [BitVec.ofNat_eq_ofNat] at hp hb
    simp [decodeTail, tailSymbols, tailBytes, List.range_succ, bytesOf, hp, hb]

/-- The code points of the encoding of `bs`. -/
theorem encodeBytes_decodes (i : Nat) (bs : List Byte) :
    ∃ cs, symbolValues revImage i ((encodeBytes fwdImage false bs)) = .codes cs ∧
      decodeCodes cs = bs := by
  induction bs using groups_of_five generalizing i with
  | short bs h =>
    by_cases h0 : bs = []
    · subst h0
      exact ⟨[], rfl, rfl⟩
    · have hs : tailSymbols bs.length < 8 := by
        revert h
        generalize bs.length = n
        revert n
        decide
      refine ⟨(List.range (tailSymbols bs.length)).map (codeSlice (packBytes (bs.getD 0 0)
          (bs.getD 1 0) (bs.getD 2 0) (bs.getD 3 0) (bs.getD 4 0))), ?_, ?_⟩
      · rw [encodeBytes_short fwdImage false h h0, encodeTail]
        simp only [Bool.false_eq_true, if_false, List.append_nil]
        exact symbolValues_symbolsOf i _ _
      · rw [decodeCodes_short (by simpa using hs)]
        exact decodeTail_slices h
  | group b₀ b₁ b₂ b₃ b₄ rest ih =>
    obtain ⟨ds, hv, hd⟩ := ih (i + 8)
    refine ⟨(List.range 8).map (codeSlice (packBytes b₀ b₁ b₂ b₃ b₄)) ++ ds, ?_, ?_⟩
    · rw [encodeBytes_group]
      refine symbolValues_append (symbolValues_symbolsOf i _ _) ?_
      rw [encodeGroup_length]
      exact hv
    · have hg := decodeGroup_slices b₀ b₁ b₂ b₃ b₄
      simp only [List.range_succ, List.range_zero, List.nil_append, List.map_cons, List.map_nil,
        List.cons_append] at hg ⊢
      rw [decodeCodes_group, hd, hg]
      rfl

end Sys2Proof.Machine
end

