-- ==== Sys2Proof/Laws/PerInstr.lean ====
section
/-! SUPPORT. Statements about every instruction as syntax, one lemma for each constructor. -/

namespace Sys2Proof.Laws

/-- The word of the command passes every check on its fields (30_encoding.md R58, R59, R60). -/
def EncodesToLegalWord.Statement (i : Instr) : Prop :=
  i.wellFormed = true ∧ (fieldsOf (encode i)).wellFormed = true

theorem EncodesToLegalWord.encsz (pad : Bool) : Statement (.encsz pad) := by
  cases pad <;> exact ⟨rfl, by decide⟩

theorem EncodesToLegalWord.enc (pad : Bool) : Statement (.enc pad) := by
  cases pad <;> exact ⟨rfl, by decide⟩

theorem EncodesToLegalWord.decsz (pad : Bool) : Statement (.decsz pad) := by
  cases pad <;> exact ⟨rfl, by decide⟩

theorem EncodesToLegalWord.dec (pad : Bool) : Statement (.dec pad) := by
  cases pad <;> exact ⟨rfl, by decide⟩

theorem EncodesToLegalWord.fwd : Statement .fwd := ⟨rfl, by decide⟩

theorem EncodesToLegalWord.rev : Statement .rev := ⟨rfl, by decide⟩

end Sys2Proof.Laws
end

