-- ==== Sys2Proof/Laws/Step.lean ====
section
/-! SUPPORT. Everything a command, a host line and a step can answer, one inversion lemma each. -/

namespace Sys2Proof.Machine

/-- FWD answers a next state in two ways only (40_lut.md R70). -/
theorem execFwd_next {s t : State} (h : execFwd s = .next t) :
    s.arg.written = true ∧
      ((32 ≤ s.arg.value ∧ t = raiseError .illegalOperand s.arg.value s) ∨
        (s.arg.value < 32 ∧
          t = complete (s.setResult (fwdLookup s.fwdRom (BitVec.ofNat 5 s.arg.value)).toNat))) := by
  obtain ⟨ha, h⟩ := withOperand_next h
  refine ⟨ha, ?_⟩
  split at h
  · cases h
    exact .inl ⟨‹_›, rfl⟩
  · cases h
    exact .inr ⟨by omega, rfl⟩

/-- REV answers a next state in two ways only (40_lut.md R71). -/
theorem execRev_next {s t : State} (h : execRev s = .next t) :
    s.arg.written = true ∧
      ((256 ≤ s.arg.value ∧ t = raiseError .illegalOperand s.arg.value s) ∨
        (s.arg.value < 256 ∧
          t = complete (s.setResult (revEntry s.revRom (BitVec.ofNat 8 s.arg.value)).toNat))) := by
  obtain ⟨ha, h⟩ := withOperand_next h
  refine ⟨ha, ?_⟩
  split at h
  · cases h
    exact .inl ⟨‹_›, rfl⟩
  · cases h
    exact .inr ⟨by omega, rfl⟩

/-- The two ends of a command word: a legal word's command runs, an illegal word raises IllegalCommand
(30_encoding.md R60). -/
theorem runWord_next {w : Byte} {s t : State} (h : runWord w s = .next t) :
    (∃ i, decode w = .legal i ∧ exec i s = .next t) ∨
      (∃ why, decode w = .illegal why ∧ t = raiseError .illegalCommand w.toNat s) := by
  unfold runWord at h
  split at h
  · exact .inl ⟨_, ‹_›, h⟩
  · cases h
    exact .inr ⟨_, ‹_›, rfl⟩

/-- A host write answers a next state in three ways only (10_state.md R18, R26). -/
theorem hostWrite_next {index v : Nat} {s t : State} (h : hostWrite index v s = .next t) :
    (index = 0 ∧ v < 256 ∧ runWord (BitVec.ofNat 8 v) (s.setCmd (BitVec.ofNat 8 v)) = .next t) ∨
      (index = 1 ∧ v < 2 ^ Config.wLen ∧ t = s.setArg v) ∨
      (index = 2 ∧ v < 2 ^ Config.wLen ∧ t = s.setOutCap v) := by
  unfold hostWrite at h
  split at h
  · split at h
    · exact .inl ⟨rfl, ‹_›, h⟩
    · cases h
  · split at h
    · cases h
      exact .inr (.inl ⟨rfl, (fitsLen_iff v).mp ‹_›, rfl⟩)
    · cases h
  · split at h
    · cases h
      exact .inr (.inr ⟨rfl, (fitsLen_iff v).mp ‹_›, rfl⟩)
    · cases h
  · cases h

/-- A host read that answers a next state changes the host's last value and nothing else. -/
theorem hostRead_next {index : Nat} {s t : State} (h : hostRead index s = .next t) :
    ∃ v, t = s.setGot v := by
  unfold hostRead at h
  split at h <;> first
    | (unfold deliver at h; split at h <;> cases h; exact ⟨_, rfl⟩)
    | cases h

/-- A use of the first bytes of OUT that answers a next state had that many bytes. -/
theorem withOutPrefix_next {count : Nat} {k : List Byte → State} {s t : State}
    (h : withOutPrefix count k s = .next t) :
    ∃ bytes, inputBytes s.outBuf count = some bytes ∧ t = k bytes := by
  unfold withOutPrefix at h
  split at h
  · cases h
  · cases h
    exact ⟨_, ‹_›, rfl⟩

theorem withOutPrefix_exists {count : Nat} {s : State} (hf : Memory.wf s.outBuf)
    (h : count ≤ memSize s.outBuf) (k : List Byte → State) :
    ∃ bytes, inputBytes s.outBuf count = some bytes ∧ withOutPrefix count k s = .next (k bytes) := by
  obtain ⟨bytes, hb⟩ := inputBytes_exists hf h
  exact ⟨bytes, hb, by rw [withOutPrefix, hb]⟩

theorem withOutPrefix_overrun {count : Nat} {s : State} (h : memSize s.outBuf < count)
    (k : List Byte → State) : withOutPrefix count k s = .fault .hostCopyOverrun := by
  rw [withOutPrefix, inputBytes_none h]

/-- A host branch that answers a next state moves the host and changes nothing else. -/
theorem branchOnErr_next {taken : Bool} {target : Nat} {s t : State}
    (h : branchOnErr taken target s = .next t) : ∃ p, t = s.goTo p := by
  unfold branchOnErr at h
  split at h
  · split at h
    · cases h
      exact ⟨_, rfl⟩
    · cases h
      exact ⟨_, rfl⟩
  · cases h

/-- Every way a step can answer a next state (30_encoding.md R64; 70_reset_and_hazards.md R109). -/
theorem step_next {s t : State} (h : step s = .next t) :
    (nextLine s = none ∧ t = s) ∨
      (∃ bytes, t = s.advance.supplyIn bytes) ∨
      (∃ count, t = s.advance.allocOut count) ∨
      (∃ bytes, t = s.advance.supplyOut bytes) ∨
      (∃ index v, nextLine s = some (.write index v) ∧
        hostWrite index (hostValue v s) s.advance = .next t) ∨
      (∃ v, t = s.advance.setGot v) ∨
      (∃ bytes, t = s.advance.setTaken bytes) ∨
      (∃ p, t = s.goTo p) ∨
      (nextLine s = some .reset ∧ t = resetBlock s.advance) := by
  unfold step at h
  split at h
  · cases h
    exact .inl ⟨‹_›, rfl⟩
  · rename_i line hl
    right
    cases line with
    | loadIn bytes =>
      cases h
      exact .inl ⟨bytes, rfl⟩
    | loadInFromOut count =>
      obtain ⟨bytes, -, rfl⟩ := withOutPrefix_next h
      exact .inl ⟨bytes, rfl⟩
    | takeOut count =>
      obtain ⟨bytes, -, rfl⟩ := withOutPrefix_next h
      exact .inr (.inr (.inr (.inr (.inr (.inl ⟨bytes, rfl⟩)))))
    | allocOut count =>
      cases h
      exact .inr (.inl ⟨_, rfl⟩)
    | supplyOut bytes =>
      cases h
      exact .inr (.inr (.inl ⟨bytes, rfl⟩))
    | write index v => exact .inr (.inr (.inr (.inl ⟨index, v, hl, h⟩)))
    | read index => exact .inr (.inr (.inr (.inr (.inl (hostRead_next h)))))
    | bnzErr target => exact .inr (.inr (.inr (.inr (.inr (.inr (.inl (branchOnErr_next h)))))))
    | bzErr target => exact .inr (.inr (.inr (.inr (.inr (.inr (.inl (branchOnErr_next h)))))))
    | reset =>
      cases h
      exact .inr (.inr (.inr (.inr (.inr (.inr (.inr ⟨hl, rfl⟩))))))

end Sys2Proof.Machine
end

