-- ==== Sys2Proof/Tests/Slice0.lean ====
section
/-! SUPPORT. Tests. Expected values come from the worked examples and vectors of 95_test_vectors.md and
the tables of 30_encoding.md. Then, for each obligation that has hypotheses, a state and operands that
meet them all. -/

namespace Sys2Proof.Tests

open Sys2Proof.Machine Sys2Proof.Spec

/-! ## Well-formedness (30_encoding.md R57, R58, R59) -/

theorem test_rsv_set_is_ill_formed :
    CmdFields.reservedClear ⟨0b0001, true, 0b011⟩ = false ∧
      CmdFields.wellFormed ⟨0b0001, true, 0b011⟩ = false := by decide

theorem test_reserved_op_is_ill_formed :
    CmdFields.opAssigned ⟨0b0000, false, 0b110⟩ = false ∧
      CmdFields.wellFormed ⟨0b0000, false, 0b110⟩ = false ∧
      CmdFields.wellFormed ⟨0b0000, true, 0b111⟩ = false := by decide

theorem test_pad_on_table_read_is_ill_formed :
    CmdFields.padAllowed ⟨0b0000, true, 0b100⟩ = false ∧
      CmdFields.wellFormed ⟨0b0000, true, 0b100⟩ = false ∧
      CmdFields.wellFormed ⟨0b0000, true, 0b101⟩ = false := by decide

theorem test_pad_on_dec_is_well_formed : CmdFields.wellFormed ⟨0b0000, true, 0b011⟩ = true := by
  decide

/-- The checks accept exactly the words the decoder accepts. -/
theorem test_well_formed_iff_legal :
    ∀ w : Byte, (fieldsOf w).wellFormed = true ↔ ∃ i, decode w = .legal i := by
  intro w
  have h : ∀ w : Byte, (fieldsOf w).wellFormed =
      match decode w with | .legal _ => true | .illegal _ => false := by decide
  rw [h w]
  cases decode w <;> simp

/-! ## Decoding: each word as RSV, PAD, OP of 30_encoding.md R56, R57 -/

theorem test_decode_encsz_words :
    decode (0b0000#4 ++ 0b1#1 ++ 0b000#3) = .legal (.encsz true) ∧
      decode (0b0000#4 ++ 0b0#1 ++ 0b000#3) = .legal (.encsz false) := by decide

theorem test_decode_enc_words :
    decode (0b0000#4 ++ 0b1#1 ++ 0b001#3) = .legal (.enc true) ∧
      decode (0b0000#4 ++ 0b0#1 ++ 0b001#3) = .legal (.enc false) := by decide

theorem test_decode_decsz_words :
    decode (0b0000#4 ++ 0b1#1 ++ 0b010#3) = .legal (.decsz true) ∧
      decode (0b0000#4 ++ 0b0#1 ++ 0b010#3) = .legal (.decsz false) := by decide

theorem test_decode_dec_words :
    decode (0b0000#4 ++ 0b1#1 ++ 0b011#3) = .legal (.dec true) ∧
      decode (0b0000#4 ++ 0b0#1 ++ 0b011#3) = .legal (.dec false) := by decide

theorem test_decode_fwd_word :
    decode (0b0000#4 ++ 0b0#1 ++ 0b100#3) = .legal .fwd := by decide

theorem test_decode_rev_word :
    decode (0b0000#4 ++ 0b0#1 ++ 0b101#3) = .legal .rev := by decide

/-- The illegal words of 95_test_vectors.md section 2.7. -/
theorem test_decode_illegal_words :
    [0x06, 0x07, 0x0C, 0x0D, 0x0E, 0x0F, 0x10, 0x1B, 0x80, 0xFF].map decode =
      [.illegal .reservedOp, .illegal .reservedOp, .illegal .padOnTableRead,
        .illegal .padOnTableRead, .illegal .reservedOp, .illegal .reservedOp,
        .illegal .reservedBits, .illegal .reservedBits, .illegal .reservedBits,
        .illegal .reservedBits] := by decide

/-- The matches of spec/opcode_table.json, and bits past the word. -/
theorem test_decode_table_words :
    [0x00, 0x01, 0x02, 0x03, 0x04, 0x05, 0x06].map (decodeTableWord 8) =
      [some (.encsz false), some (.enc false), some (.decsz false), some (.dec false), some .fwd,
        some .rev, none] ∧
      decodeTableWord 16 0x0109 = none := by decide

/-- 30_encoding.md R63. -/
theorem test_assemble :
    ["ENC", "ENC.P", "ENC.NP", "DEC", "DECSZ.NP", "FWD", "FWD.P"].map assemble =
      [some 0x09, some 0x09, some 0x01, some 0x0B, some 0x02, some 0x04, none] := by decide

/-- 30_encoding.md R65 and R66, with the words of 95_test_vectors.md P1. -/
theorem test_owned_forms :
    encodeOwned [0x66] true =
        [.loadIn [0x66], .write 1 (.lit 1), .write 0 (.lit 0x08), .read 3, .allocOut .got,
          .write 2 .got, .write 0 (.lit 0x09), .takeOut .got] ∧
      decodeOwned [0x4D, 0x59] false 9 =
        [.loadIn [0x4D, 0x59], .write 1 (.lit 2), .write 0 (.lit 0x02), .bnzErr 9, .read 3,
          .allocOut .got, .write 2 .got, .write 1 (.lit 2), .write 0 (.lit 0x03), .bnzErr 9,
          .takeOut .got] := by
  decide

/-! ## One step or command on a small state -/

/-- A state with ARG and OUT_CAP written and both buffers supplied. -/
def bench (input output : List Byte) (arg cap : Nat) : State :=
  { State.reset with
    arg := ⟨arg, true⟩, outCap := ⟨cap, true⟩
    inBuf := bufferOf input, outBuf := bufferOf output }

/-- A state at this host line. -/
def atLine (line : HostLine) (s : State) : State :=
  { s with host := { s.host with program := [line], position := 0 } }

/-- STATUS, ERR_INFO, RESULT and ARG after a next state, and then the bytes of OUT. -/
def report : Result → Option (List Nat)
  | .next t =>
    some ([t.status.value.toNat, t.errInfo.value, t.result.value, t.arg.value]
      ++ t.outBuf.map fun c => c.2.toNat)
  | .fault _ => none
  | .refused _ => none

/-- "foobar". -/
def foobar : List Byte := [0x66, 0x6F, 0x6F, 0x62, 0x61, 0x72]

/-- `MZXW6YTBOI======`. -/
def foobarText : List Byte :=
  [0x4D, 0x5A, 0x58, 0x57, 0x36, 0x59, 0x54, 0x42, 0x4F, 0x49, 0x3D, 0x3D, 0x3D, 0x3D, 0x3D, 0x3D]

/-- `MY======`. -/
def fText : List Byte := [0x4D, 0x59, 0x3D, 0x3D, 0x3D, 0x3D, 0x3D, 0x3D]

/-- `n` bytes of value AA. -/
def filler (n : Nat) : List Byte := List.replicate n 0xAA

/-- 95_test_vectors.md S5. -/
theorem test_encsz_six :
    report (exec (.encsz true) (bench [] [] 6 0)) = some [0, 0, 16, 6] ∧
      report (exec (.encsz false) (bench [] [] 6 0)) = some [0, 0, 10, 6] := by decide

/-- 95_test_vectors.md S3. -/
theorem test_enc_foobar :
    report (exec (.enc true) (bench foobar (filler 16) 6 16)) =
      some ([0, 0, 16, 6] ++ foobarText.map BitVec.toNat) := by decide

/-- 95_test_vectors.md section 2.3, excess capacity. -/
theorem test_enc_leaves_excess_capacity :
    report (exec (.enc false) (bench [0x66] (filler 4) 1 4)) =
      some [0, 0, 2, 1, 0x4D, 0x59, 0xAA, 0xAA] := by decide

/-- 95_test_vectors.md section 2.4: `MZXW6YTBOI======`, and a run of 7. -/
theorem test_decsz_strips :
    report (exec (.decsz true) (bench foobarText [] 16 0)) = some [0, 0, 6, 10] ∧
      report (exec (.decsz false)
        (bench [0x4D, 0x3D, 0x3D, 0x3D, 0x3D, 0x3D, 0x3D, 0x3D] [] 8 0)) =
          some [0, 0, 5, 8] := by decide

/-- 95_test_vectors.md section 2.4: `MY`, in both modes. -/
theorem test_decsz_short :
    report (exec (.decsz true) (bench [0x4D, 0x59] [] 2 0)) = some [2, 2, 0, 2] ∧
      report (exec (.decsz false) (bench [0x4D, 0x59] [] 2 0)) = some [0, 0, 1, 2] := by
  decide

/-- 95_test_vectors.md S4. -/
theorem test_dec_foobar :
    report (exec (.dec true) (bench foobarText (filler 7) 16 6)) =
      some ([0, 0, 6, 16] ++ foobar.map BitVec.toNat ++ [0xAA]) := by decide

/-- 95_test_vectors.md section 2.6: `a=======` with OUT_CAP 0 reports the size, and with 5 the index.
OUT at OUT_CAP and above stays. -/
theorem test_dec_error_order :
    report (exec (.dec true) (bench (0x61 :: List.replicate 7 0x3D) (filler 2) 8 0)) =
        some [3, 5, 0, 8, 0xAA, 0xAA] ∧
      (report (exec (.dec true) (bench (0x61 :: List.replicate 7 0x3D) (filler 6) 8 5))).map
        (fun r => r.take 4 ++ r.drop 9) = some [1, 0, 0, 8, 0xAA] := by decide

/-- 95_test_vectors.md section 2.1. -/
theorem test_fwd_edges :
    report (exec .fwd (bench [] [] 25 0)) = some [0, 0, 0x5A, 25] ∧
      report (exec .fwd (bench [] [] 26 0)) = some [0, 0, 0x32, 26] ∧
      report (exec .fwd (bench [] [] 32 0)) = some [5, 32, 0, 32] := by decide

/-- 95_test_vectors.md section 2.1. -/
theorem test_rev_edges :
    report (exec .rev (bench [] [] 0x5A 0)) = some [0, 0, 25, 0x5A] ∧
      report (exec .rev (bench [] [] 0x40 0)) = some [0, 0, 0xFF, 0x40] ∧
      report (exec .rev (bench [] [] 256 0)) = some [5, 256, 0, 256] := by decide

/-- 95_test_vectors.md section 2.7: 0x0E right after reset. -/
theorem test_illegal_word_after_reset :
    report (step (atLine (.write 0 (.lit 0x0E)) State.reset)) = some [4, 14, 0, 0] := by decide

/-- 95_test_vectors.md section 2.8: right after reset, and the bounds. -/
theorem test_stops :
    step (atLine (.read 3) State.reset) = .fault .unwrittenRead ∧
      step (atLine (issueLine (.encsz true)) State.reset) = .fault .unwrittenRead ∧
      exec (.enc true) (bench (foobar.take 5) (filler 16) 6 16) = .fault .inOverrun ∧
      exec (.dec true) (bench fText (filler 8) 8 9) = .fault .outOverrun ∧
      exec (.enc true) (bench foobar (filler 16) 6 15) = .fault .encUndersized :=
  ⟨rfl, rfl, rfl, rfl, rfl⟩

/-- 95_test_vectors.md P4, the first row of its register trace, as a run shows it. -/
theorem test_observation_after_fwd :
    (match step (atLine (issueLine .fwd) { State.reset with arg := ⟨31, true⟩ }) with
      | .next t => some (observe t)
      | .fault _ => none
      | .refused _ => none) =
      some ⟨[some 4, some 31, none, some 0x37, some 0, some 0], []⟩ := rfl

/-- 30_encoding.md R66: the last line hands the host the bytes DEC wrote, not the one past them. -/
theorem test_host_takes_result :
    (match step (atLine (.takeOut (.lit 6)) (bench [] (foobar ++ filler 1) 0 0)) with
      | .next t => t.host.taken
      | .fault _ => []
      | .refused _ => []) = foobar := rfl

/-- A placed word runs at the next step, as the first command after reset. -/
theorem test_placed_word_runs :
    report (step (State.reset.withFetchWord 8 0x04)) = some [0, 0, 0x41, 0] ∧
      report (step (State.reset.withFetchWord 8 0xFF)) = some [4, 0xFF, 0, 0] := by decide

/-! ## Witnesses: the hypotheses of each obligation, met together -/

theorem bench_input {input output : List Byte} {arg cap : Nat} (h : arg ≤ input.length) :
    InputReady (bench input output arg cap) :=
  ⟨rfl, bufferOf_wf _, by simpa [bench] using h⟩

theorem bench_output {input output : List Byte} {arg cap : Nat} (h : cap ≤ output.length) :
    OutputReady (bench input output arg cap) :=
  ⟨rfl, bufferOf_wf _, by simpa [bench] using h⟩

theorem bench_roms (input output : List Byte) (arg cap : Nat) :
    RomsIntact (bench input output arg cap) := ⟨rfl, rfl⟩

theorem fits_if_small {v : Nat} (h : v < 65536) : v < 2 ^ Config.wLen :=
  Nat.lt_of_lt_of_le h width_at_least_16

/-- The least length ENCSZ and ENC refuse, and the next below it. -/
theorem eighth_of_width :
    8 * 2 ^ (Config.wLenExtra + 13) = 2 ^ Config.wLen ∧ 8 ≤ 8 * 2 ^ (Config.wLenExtra + 13) := by
  have h : 2 ^ Config.wLen = 2 ^ (Config.wLenExtra + 13) * 2 ^ 3 := by
    rw [← Nat.pow_add]; rfl
  have := Nat.two_pow_pos (Config.wLenExtra + 13)
  omega

theorem witness_DecodeOfEncodeGivesTheInstr : (Instr.dec true).wellFormed = true := rfl

theorem witness_IllegalWordsByTheirBits :
    (0x10 : Byte).toNat / 16 ≠ 0 ∧ (0xFF : Byte).toNat / 16 ≠ 0 ∧
      ((0x06 : Byte).toNat / 16 = 0 ∧ 6 ≤ (0x06 : Byte).toNat % 8) ∧
      ((0x0F : Byte).toNat / 16 = 0 ∧ 6 ≤ (0x0F : Byte).toNat % 8) ∧
      ((0x0C : Byte).toNat / 16 = 0 ∧ (0x0C : Byte).toNat / 8 = 1 ∧ (0x0C : Byte).toNat % 8 = 4) ∧
      ((0x0D : Byte).toNat / 16 = 0 ∧ (0x0D : Byte).toNat / 8 = 1 ∧
        (0x0D : Byte).toNat % 8 = 5) := by decide

theorem witness_StepRunsTheIssuedCommand :
    let s := atLine (.write 0 (.lit 0x0B)) (bench fText (filler 1) 8 1)
    nextLine s = some (.write 0 (.lit 0x0B)) ∧ hostValue (.lit 0x0B) s < 256 ∧
      decode (BitVec.ofNat 8 (hostValue (.lit 0x0B) s)) = .legal (.dec true) := by decide

theorem witness_IllegalWordRaisesIllegalCommand :
    let s := atLine (.write 0 (.lit 0xFF)) State.reset
    nextLine s = some (.write 0 (.lit 0xFF)) ∧ hostValue (.lit 0xFF) s < 256 ∧
      decode (BitVec.ofNat 8 (hostValue (.lit 0xFF) s)) = .illegal .reservedBits := by decide

theorem witness_IdleBlockDoesNothing :
    State.reset.host.program.length ≤ State.reset.host.position := by decide

theorem witness_HostSetsArgAndOutCap :
    let v := HostVal.lit (2 ^ Config.wLen - 1)
    hostValue v State.reset < 2 ^ Config.wLen ∧
      nextLine (atLine (.write 1 v) State.reset) = some (.write 1 v) ∧
      nextLine (atLine (.write 2 v) State.reset) = some (.write 2 v) :=
  ⟨Nat.sub_lt (Nat.two_pow_pos _) Nat.one_pos, rfl, rfl⟩

theorem witness_ReadOnlyAndAbsentRegistersAreRefused :
    nextLine (atLine (.write 3 (.lit 0)) State.reset) = some (.write 3 (.lit 0)) ∧
      nextLine (atLine (.write 5 (.lit 0)) State.reset) = some (.write 5 (.lit 0)) ∧
      nextLine (atLine (.write 6 (.lit 0)) State.reset) = some (.write 6 (.lit 0)) ∧
      nextLine (atLine (.read 6) State.reset) = some (.read 6) := by decide

theorem witness_ValueWiderThanTheRegisterIsRefused :
    let v := HostVal.lit (2 ^ Config.wLen)
    (nextLine (atLine (.write 0 (.lit 256)) State.reset) = some (.write 0 (.lit 256)) ∧
        256 ≤ hostValue (.lit 256) State.reset) ∧
      nextLine (atLine (.write 1 v) State.reset) = some (.write 1 v) ∧
      nextLine (atLine (.write 2 v) State.reset) = some (.write 2 v) ∧
      2 ^ Config.wLen ≤ hostValue v State.reset :=
  ⟨by decide, rfl, rfl, Nat.le_refl _⟩

/-- Each of the six registers at its index, unwritten after reset; ARG and OUT_CAP written. -/
theorem witness_HostReadGivesTheRegister :
    (∀ index < 6, nextLine (atLine (.read index) State.reset) = some (.read index)) ∧
      [State.reset.cmd.written, State.reset.arg.written, State.reset.outCap.written,
          State.reset.result.written, State.reset.status.written, State.reset.errInfo.written] =
        [false, false, false, false, false, false] ∧
      (nextLine (atLine (.read 1) (bench [] [] 7 9)) = some (.read 1) ∧
        (bench [] [] 7 9).arg = ⟨7, true⟩) ∧
      (nextLine (atLine (.read 2) (bench [] [] 7 9)) = some (.read 2) ∧
        (bench [] [] 7 9).outCap = ⟨9, true⟩) := by decide

/-- The four registers that a command leaves written. -/
theorem witness_HostReadGivesTheRegister_after_a_command :
    let s := { bench [] [] 7 9 with
      cmd := ⟨0xFF, true⟩, result := ⟨1, true⟩, status := ⟨4, true⟩, errInfo := ⟨255, true⟩ }
    [s.cmd.written, s.result.written, s.status.written, s.errInfo.written] =
        [true, true, true, true] ∧
      (∀ index < 6, nextLine (atLine (.read index) s) = some (.read index)) := by decide

theorem witness_HostBranchesOnStatusErr :
    let good := { State.reset with status := ⟨0, true⟩ }
    let bad := { State.reset with status := ⟨5, true⟩ }
    (nextLine (atLine (.bnzErr 9) good) = some (.bnzErr 9) ∧ good.status.written = true) ∧
      (nextLine (atLine (.bnzErr 9) bad) = some (.bnzErr 9) ∧ bad.status.written = true) ∧
      (nextLine (atLine (.bzErr 9) good) = some (.bzErr 9) ∧ good.status.written = true) ∧
      (nextLine (atLine (.bzErr 9) bad) = some (.bzErr 9) ∧ bad.status.written = true) ∧
      (nextLine (atLine (.bnzErr 9) State.reset) = some (.bnzErr 9) ∧
        nextLine (atLine (.bzErr 9) State.reset) = some (.bzErr 9) ∧
        State.reset.status.written = false) := by decide

theorem witness_LoadInSuppliesTheBytes :
    nextLine (atLine (.loadIn foobar) State.reset) = some (.loadIn foobar) ∧
      nextLine (atLine (.loadIn []) State.reset) = some (.loadIn []) := by decide

theorem witness_LoadInFromOutCopies :
    let s := bench [] foobar 0 0
    (nextLine (atLine (.loadInFromOut (.lit 6)) s) = some (.loadInFromOut (.lit 6)) ∧
        hostValue (.lit 6) s ≤ memSize s.outBuf) ∧
      (nextLine (atLine (.loadInFromOut (.lit 7)) s) = some (.loadInFromOut (.lit 7)) ∧
        memSize s.outBuf < hostValue (.lit 7) s) ∧
      Memory.wf s.outBuf := by decide

theorem witness_HostTakesTheBytesOfOut :
    let s := bench [] foobar 0 0
    (nextLine (atLine (.takeOut (.lit 6)) s) = some (.takeOut (.lit 6)) ∧
        hostValue (.lit 6) s ≤ memSize s.outBuf) ∧
      (nextLine (atLine (.takeOut (.lit 7)) s) = some (.takeOut (.lit 7)) ∧
        memSize s.outBuf < hostValue (.lit 7) s) ∧
      Memory.wf s.outBuf := by decide

theorem witness_HostSuppliesOut :
    nextLine (atLine (.supplyOut foobar) State.reset) = some (.supplyOut foobar) ∧
      nextLine (atLine (.allocOut (.lit 16)) State.reset) = some (.allocOut (.lit 16)) := by decide

theorem witness_ResetEventClearsTheFlags :
    nextLine (atLine .reset (bench fText [] 8 0)) = some .reset := by decide

theorem witness_TablesAreConsistent :
    (∀ i : CodePoint, fwdLookup fwdImage i ≠ 0x3D) ∧ fwdLookup fwdImage 31 = 0x37 := by decide

theorem witness_SentinelValueIsInvisibleToLookup :
    32 ≤ (32 : Byte).toNat ∧ 32 ≤ (255 : Byte).toNat := by decide

theorem witness_FwdReadsTheForwardTable :
    (RomsIntact State.reset ∧ State.reset.arg.written = false) ∧
      (RomsIntact (bench [] [] 32 0) ∧ 32 ≤ (bench [] [] 32 0).arg.value) ∧
      (RomsIntact (bench [] [] 31 0) ∧ (bench [] [] 31 0).arg.written = true ∧
        (bench [] [] 31 0).arg.value < 32) :=
  ⟨⟨⟨rfl, rfl⟩, rfl⟩, ⟨⟨rfl, rfl⟩, by decide⟩, ⟨rfl, rfl⟩, rfl, by decide⟩

theorem witness_RevReadsTheReverseTable :
    (RomsIntact State.reset ∧ State.reset.arg.written = false) ∧
      (RomsIntact (bench [] [] 256 0) ∧ 256 ≤ (bench [] [] 256 0).arg.value) ∧
      (RomsIntact (bench [] [] 255 0) ∧ (bench [] [] 255 0).arg.written = true ∧
        (bench [] [] 255 0).arg.value < 256) :=
  ⟨⟨⟨rfl, rfl⟩, rfl⟩, ⟨⟨rfl, rfl⟩, by decide⟩, ⟨rfl, rfl⟩, rfl, by decide⟩

theorem witness_EncszWritesTheEncodedSize :
    let n := 2 ^ (Config.wLenExtra + 13)
    State.reset.arg.written = false ∧
      ((bench [] [] n 0).arg.written = true ∧
        2 ^ Config.wLen ≤ 8 * (bench [] [] n 0).arg.value + 4) ∧
      ((bench [] [] (n - 1) 0).arg.written = true ∧
        8 * (bench [] [] (n - 1) 0).arg.value + 4 < 2 ^ Config.wLen) := by
  have := eighth_of_width
  refine ⟨rfl, ⟨rfl, ?_⟩, rfl, ?_⟩
  · show _ ≤ 8 * 2 ^ (Config.wLenExtra + 13) + 4
    omega
  · show 8 * (2 ^ (Config.wLenExtra + 13) - 1) + 4 < _
    omega

theorem witness_EncWritesTheEncoding :
    let s := bench foobar (filler 16) 6 16
    InputReady s ∧ OutputReady s ∧ RomsIntact s ∧ 8 * s.arg.value + 4 < 2 ^ Config.wLen ∧
      encodedLength true s.arg.value ≤ s.outCap.value :=
  ⟨bench_input (by decide), bench_output (by decide), bench_roms _ _ _ _,
    fits_if_small (v := 52) (by decide), by decide⟩

theorem witness_EncOutputIsSymbolsThenPads :
    let s := bench foobar (filler 16) 6 16
    Memory.wf s.outBuf ∧ RomsIntact s ∧ ∃ t, exec (.enc true) s = .next t :=
  ⟨bufferOf_wf _, bench_roms _ _ _ _, _, rfl⟩

theorem witness_EncIntoUndersizedOutFaults :
    let s := bench foobar (filler 16) 6 15
    InputReady s ∧ OutputReady s ∧ 8 * s.arg.value + 4 < 2 ^ Config.wLen ∧
      s.outCap.value < encodedLength true s.arg.value :=
  ⟨bench_input (by decide), bench_output (by decide), fits_if_small (v := 52) (by decide),
    by decide⟩

/-- Padded with a run of 6, and unpadded with no run. -/
theorem witness_DecszWritesSizeAndStrippedLength :
    (let s := bench foobarText [] 16 0;
      InputReady s ∧ 5 * s.arg.value < 2 ^ Config.wLen ∧ acceptsLength true s.arg.value ∧
        padRunIs s.inBuf s.arg.value 6) ∧
    (let s := bench foobarText [] 10 0;
      InputReady s ∧ 5 * s.arg.value < 2 ^ Config.wLen ∧ acceptsLength false s.arg.value ∧
        padRunIs s.inBuf s.arg.value 0) := by
  refine ⟨⟨bench_input (by decide), fits_if_small (v := 80) (by decide), ?_, ?_⟩,
    ⟨bench_input (by decide), fits_if_small (v := 50) (by decide), ?_, ?_⟩⟩
  all_goals first | (unfold acceptsLength; decide) | (unfold padRunIs; decide)

theorem witness_DecszRejectsOtherLengths :
    let s := bench foobarText [] 9 0
    InputReady s ∧ 5 * s.arg.value < 2 ^ Config.wLen ∧ ¬ acceptsLength true s.arg.value ∧
      ¬ acceptsLength false s.arg.value :=
  ⟨bench_input (by decide), fits_if_small (v := 45) (by decide),
    by unfold acceptsLength; decide, by unfold acceptsLength; decide⟩

theorem witness_StrippedLengthsAndTheirSizes :
    decLen true foobarText = .ok 6 10 ∧ decLen false (foobarText.take 7) = .ok 4 7 := by decide

/-- With exactly the room needed. -/
theorem witness_DecWritesTheDecoding :
    let s := bench foobarText (filler 6) 16 6
    InputReady s ∧ OutputReady s ∧ RomsIntact s ∧ 5 * s.arg.value < 2 ^ Config.wLen ∧
      acceptsLength true s.arg.value ∧ padRunIs s.inBuf s.arg.value 6 ∧
      5 * strippedLen s.arg.value 6 / 8 ≤ s.outCap.value ∧
      ∀ i < strippedLen s.arg.value 6, isSymbol s.inBuf i :=
  ⟨bench_input (by decide), bench_output (by decide), bench_roms _ _ _ _,
    fits_if_small (v := 80) (by decide), by unfold acceptsLength; decide,
    by unfold padRunIs; decide, by decide, by unfold isSymbol; decide⟩

theorem witness_DecRejectsOtherLengths :
    let s := bench foobarText (filler 6) 15 6
    InputReady s ∧ OutputReady s ∧ 5 * s.arg.value < 2 ^ Config.wLen ∧
      ¬ acceptsLength true s.arg.value :=
  ⟨bench_input (by decide), bench_output (by decide), fits_if_small (v := 75) (by decide),
    by unfold acceptsLength; decide⟩

/-- One byte short. -/
theorem witness_DecRejectsTooSmallOutput :
    let s := bench foobarText (filler 6) 16 5
    InputReady s ∧ OutputReady s ∧ 5 * s.arg.value < 2 ^ Config.wLen ∧
      acceptsLength true s.arg.value ∧ padRunIs s.inBuf s.arg.value 6 ∧
      s.outCap.value < 5 * strippedLen s.arg.value 6 / 8 :=
  ⟨bench_input (by decide), bench_output (by decide), fits_if_small (v := 80) (by decide),
    by unfold acceptsLength; decide, by unfold padRunIs; decide, by decide⟩

/-- A run of 7 is no padding, so the first `=`, at index 1, is no symbol. -/
theorem witness_DecRejectsTheLowestNonSymbol :
    let s := bench [0x4D, 0x3D, 0x3D, 0x3D, 0x3D, 0x3D, 0x3D, 0x3D] (filler 5) 8 5
    InputReady s ∧ OutputReady s ∧ RomsIntact s ∧ 5 * s.arg.value < 2 ^ Config.wLen ∧
      acceptsLength true s.arg.value ∧ padRunIs s.inBuf s.arg.value 7 ∧
      5 * strippedLen s.arg.value 7 / 8 ≤ s.outCap.value ∧ 1 < strippedLen s.arg.value 7 ∧
      ¬ isSymbol s.inBuf 1 ∧ ∀ i < 1, isSymbol s.inBuf i :=
  ⟨bench_input (by decide), bench_output (by decide), bench_roms _ _ _ _,
    fits_if_small (v := 40) (by decide), by unfold acceptsLength; decide,
    by unfold padRunIs; decide, by decide, by decide, by unfold isSymbol; decide,
    by unfold isSymbol; decide⟩

/-- `MY` and `MZ` (42_decode.md R86), and the other tails. -/
theorem witness_LeftoverBitsAreDiscarded :
    (([12] : List CodePoint).length = 1 ∧ (24 : CodePoint).toNat / 2 ^ 2 =
        (25 : CodePoint).toNat / 2 ^ 2) ∧
      (([12, 25, 23] : List CodePoint).length = 3 ∧ (16 : CodePoint).toNat / 2 ^ 4 =
        (31 : CodePoint).toNat / 2 ^ 4) ∧
      (([12, 25, 23, 22] : List CodePoint).length = 4 ∧ (30 : CodePoint).toNat / 2 ^ 1 =
        (31 : CodePoint).toNat / 2 ^ 1) ∧
      (([12, 25, 23, 22, 30, 24] : List CodePoint).length = 6 ∧ (16 : CodePoint).toNat / 2 ^ 3 =
        (23 : CodePoint).toNat / 2 ^ 3) := by decide

/-- Padded and unpadded encodings of "foobar", decoded from a fresh IN; the second pair meets the
premises of the mismatched case too. -/
theorem witness_DecodeOfEncodeGivesTheBytes (m : Bool) :
    let s := bench foobar (filler 16) 6 16
    let n := encodedLength m 6
    let u := bench (foobarText.take n) (filler 6) n 6
    ∃ t, RomsIntact s ∧ Memory.wf s.outBuf ∧ exec (.enc m) s = .next t ∧ RomsIntact u ∧
      InputReady u ∧ OutputReady u ∧ 5 * u.arg.value < 2 ^ Config.wLen ∧
      u.arg.value = t.result.value ∧ s.arg.value ≤ u.outCap.value ∧
      (∀ k < t.result.value, readByte u.inBuf k = readByte t.outBuf k) ∧ s.arg.value % 5 ≠ 0 := by
  cases m
  · exact ⟨_, bench_roms _ _ _ _, bufferOf_wf _, rfl, bench_roms _ _ _ _, bench_input (by decide),
      bench_output (by decide), fits_if_small (v := 50) (by decide), rfl, by decide, by decide,
      by decide⟩
  · exact ⟨_, bench_roms _ _ _ _, bufferOf_wf _, rfl, bench_roms _ _ _ _, bench_input (by decide),
      bench_output (by decide), fits_if_small (v := 80) (by decide), rfl, by decide, by decide,
      by decide⟩

/-- With room for the 6 bytes that DECSZ answers, and no more. -/
theorem witness_DecAcceptsExactlyTheseShapes :
    let s := bench foobarText (filler 6) 16 6
    InputReady s ∧ OutputReady s ∧ RomsIntact s ∧ 5 * s.arg.value < 2 ^ Config.wLen ∧
      1 ≤ s.arg.value ∧ acceptsLength true s.arg.value ∧
      5 * strippedLen s.arg.value 6 / 8 ≤ s.outCap.value ∧ 6 ≤ s.arg.value ∧
      (∀ i < s.arg.value - 6, isSymbol s.inBuf i) ∧
      ∀ i, s.arg.value - 6 ≤ i → i < s.arg.value → byteAt s.inBuf i = 0x3D :=
  ⟨bench_input (by decide), bench_output (by decide), bench_roms _ _ _ _,
    fits_if_small (v := 80) (by decide), by decide, by unfold acceptsLength; decide, by decide,
    by decide,
    by unfold isSymbol; decide, by
      intro i h1 h2
      have h1 : 10 ≤ i := h1
      have h2 : i < 16 := h2
      have h : ∀ i < 16, 10 ≤ i →
        byteAt (bench foobarText (filler 6) 16 6).inBuf i = 0x3D := by decide
      exact h i h2 h1⟩

/-- A length both reject, and one both accept. -/
theorem witness_DecszAndDecAgree :
    (∃ d v, exec (.decsz true) (bench fText (filler 1) 7 1) = .next d ∧
        exec (.dec true) (bench fText (filler 1) 7 1) = .next v ∧ d.status.value = 2) ∧
      (∃ d v, exec (.decsz true) (bench fText (filler 1) 8 1) = .next d ∧
        exec (.dec true) (bench fText (filler 1) 8 1) = .next v ∧ v.status.value = 0 ∧
        d.status.value = 0 ∧ d.result.value ≤ (bench fText (filler 1) 8 1).outCap.value) :=
  ⟨⟨_, _, rfl, rfl, by decide⟩, ⟨_, _, rfl, rfl, by decide, by decide, by decide⟩⟩

/-- 95_test_vectors.md P3, and the same input in unpadded mode. -/
theorem witness_DecAfterDecszReadsTheStrippedLength :
    let s := bench fText (filler 1) 8 1
    s.outCap.written = true ∧ s.outCap.value ≤ memSize s.outBuf ∧
      (∃ t, exec (.decsz true) s = .next t ∧ t.status.value = 0 ∧ t.arg.value ≠ s.arg.value) ∧
      ∃ t, exec (.decsz false) s = .next t ∧ t.status.value = 0 :=
  ⟨rfl, by decide, ⟨_, rfl, by decide, by decide⟩, _, rfl, by decide⟩

theorem witness_UnwrittenOperandsFault :
    State.reset.arg.written = false ∧
      (writesOut (.enc true) = true ∧ State.reset.outCap.written = false) := by decide

/-- DECSZ with OUT_CAP never written, and DEC with both written. -/
theorem witness_BufferOverrunsFault :
    (let s := { bench foobar [] 7 0 with outCap := State.reset.outCap };
      s.arg.written = true ∧ (writesOut (.decsz true) = true → s.outCap.written = true) ∧
        s.outCap.written = false ∧ readsIn (.decsz true) = true ∧ memSize s.inBuf < s.arg.value) ∧
    (let s := bench foobar (filler 8) 6 9;
      s.arg.written = true ∧ (writesOut (.dec true) = true → s.outCap.written = true) ∧
        writesOut (.dec true) = true ∧ Memory.wf s.inBuf ∧ s.arg.value ≤ memSize s.inBuf ∧
        memSize s.outBuf < s.outCap.value) := by decide

/-- ENC at its least refused length, and DECSZ and DEC with an input of 2^W_LEN bytes. -/
theorem witness_LengthsBeyondTheWidthAreRefused :
    (let s := bench (filler (2 ^ (Config.wLenExtra + 13))) [] (2 ^ (Config.wLenExtra + 13)) 0;
      InputReady s ∧ OutputReady s ∧ 2 ^ Config.wLen ≤ 8 * s.arg.value + 4) ∧
    (let s := bench (filler (2 ^ Config.wLen)) [] (2 ^ Config.wLen) 0;
      InputReady s ∧ OutputReady s ∧ 2 ^ Config.wLen ≤ 5 * s.arg.value) := by
  have := eighth_of_width
  refine ⟨⟨bench_input (by simp [filler]), bench_output (Nat.le_refl _), ?_⟩,
    bench_input (by simp [filler]), bench_output (Nat.le_refl _), ?_⟩
  · show _ ≤ 8 * 2 ^ (Config.wLenExtra + 13) + 4
    omega
  · show _ ≤ 5 * 2 ^ Config.wLen
    omega

theorem witness_CommandsChangeOnlyTheirTargets :
    (∃ t, exec (.dec true) (bench foobarText (filler 7) 16 6) = .next t) ∧
      (∃ t, exec .rev (bench [] [] 7 0) = .next t ∧ (∀ pad, Instr.rev ≠ .decsz pad) ∧
        writesOut .rev = false) :=
  ⟨⟨_, rfl⟩, ⟨_, rfl, by decide, rfl⟩⟩

theorem witness_CommandsReportInStatus :
    (∃ t, exec (.encsz true) (bench [] [] 6 0) = .next t ∧ t.status.value = 0) ∧
      ∃ t, exec .fwd (bench [] [] 32 0) = .next t ∧ t.status.value = 5 :=
  ⟨⟨_, rfl, by decide⟩, _, rfl, by decide⟩

theorem witness_ErrorsLeaveResultAndArg :
    ∃ t, exec (.decsz true) (bench fText [] 7 0) = .next t ∧ t.status.value ≠ 0 :=
  ⟨_, rfl, by decide⟩

theorem witness_ReissuedCommandReportsTheSameError :
    ∃ t, exec (.dec true) (bench fText (filler 1) 8 0) = .next t ∧ t.status.value ≠ 0 :=
  ⟨_, rfl, by decide⟩

/-- 95_test_vectors.md section 2.3: "xfoo" with ARG = 1 encodes "x" only. -/
theorem witness_BytesOfInAboveArgAreNotRead :
    let s := bench [0x78, 0x66, 0x6F, 0x6F] (filler 8) 1 8
    let m := bufferOf [0x78]
    (readsIn (.enc true) = true ∧ s.arg.value ≤ memSize m ∧
        ∀ a < s.arg.value, readByte m a = readByte s.inBuf a) ∧
      ∃ t, exec (.enc true) s = .next t :=
  ⟨by decide, _, rfl⟩

theorem witness_OutIsNeverRead :
    let s := bench foobar (filler 17) 6 17
    let m := bufferOf (List.replicate 17 0)
    Memory.wf s.outBuf ∧ Memory.wf m ∧ memSize m = memSize s.outBuf ∧
      ∃ t, exec (.enc true) s = .next t :=
  ⟨bufferOf_wf _, bufferOf_wf _, rfl, _, rfl⟩

theorem witness_EarlierReportsDoNotMatter :
    (∃ t, exec (.dec false) (bench fText (filler 1) 8 1) = .next t ∧ t.status.value = 0) ∧
      ∃ t, exec (.dec false) (bench fText (filler 1) 8 0) = .next t ∧ t.status.value = 3 :=
  ⟨⟨_, rfl, by decide⟩, _, rfl, by decide⟩

/-- One step that issues a DEC, for the two statements about buffers and ROMs. -/
theorem witness_StepKeepsTheBuffersCanonical :
    let s := atLine (.write 0 (.lit 0x0B)) (bench fText (filler 1) 8 1)
    MemoriesCanonical s ∧ ∃ t, step s = .next t :=
  ⟨⟨bufferOf_wf _, bufferOf_wf _⟩, _, rfl⟩

theorem witness_StepKeepsTheRoms :
    let s := atLine (.write 0 (.lit 0x05)) (bench [] [] 0x59 0)
    RomsIntact s ∧ ∃ t, step s = .next t := ⟨⟨rfl, rfl⟩, _, rfl⟩

theorem witness_OnlyResetClearsTheFlags :
    let s := atLine (.write 0 (.lit 0x0B)) (bench fText (filler 1) 8 1)
    nextLine s ≠ some .reset ∧ (∃ t, step s = .next t) ∧ s.arg.written = true ∧
      s.outCap.written = true := ⟨by decide, ⟨_, rfl⟩, rfl, rfl⟩

theorem witness_StepKeepsTheInvariant :
    let s := atLine (.write 0 (.lit 0x0B)) (bench fText (filler 1) 8 1)
    Inv s ∧ ∃ t, step s = .next t :=
  ⟨⟨⟨bufferOf_wf _, bufferOf_wf _⟩, ⟨rfl, rfl⟩,
      ⟨fits_if_small (v := 8) (by decide), fits_if_small (v := 1) (by decide),
        Nat.two_pow_pos _, Nat.two_pow_pos _⟩,
      ⟨by decide, by decide⟩, ⟨rfl, rfl, by decide⟩⟩, _, rfl⟩

end Sys2Proof.Tests
end

section
/-! PROOFS. The state: no step writes a ROM (10_state.md R30), the refused register transactions
(R26), and the consistency of the two tables (R32). -/

namespace Sys2Proof.Machine

/-! ## No step writes a ROM -/

/-- `t` holds the same two ROMs as `s`. -/
structure SameRoms (s t : State) : Prop where
  fwd : t.fwdRom = s.fwdRom
  rev : t.revRom = s.revRom

theorem SameRoms.trans {s t u : State} (hst : SameRoms s t) (htu : SameRoms t u) : SameRoms s u :=
  ⟨htu.fwd.trans hst.fwd, htu.rev.trans hst.rev⟩

theorem RomsIntact.of_sameRoms {s t : State} (hs : RomsIntact s) (h : SameRoms s t) :
    RomsIntact t := by
  obtain ⟨hfwd, hrev⟩ := hs
  exact ⟨h.fwd.trans hfwd, h.rev.trans hrev⟩

theorem romsIntact_reset : RomsIntact State.reset := ⟨rfl, rfl⟩

theorem romsIntact_resetBlock (s : State) : RomsIntact (resetBlock s) :=
  ⟨resetBlock_fwdRom s, resetBlock_revRom s⟩

theorem decOutcome_sameRoms (pad : Bool) (input : List Byte) (s : State) :
    SameRoms s (decOutcome pad input s) := by
  rcases decOutcome_cases pad input s with
    ⟨_, e⟩ | ⟨_, _, e⟩ | ⟨_, _, _, _, e⟩ | ⟨_, _, _, _, e⟩
  all_goals
    rw [e]
    exact ⟨rfl, rfl⟩

/-- No command writes a ROM (10_state.md R30). -/
theorem exec_sameRoms {i : Instr} {s t : State} (h : exec i s = .next t) : SameRoms s t := by
  cases i with
  | encsz pad =>
    obtain ⟨_, _, rfl⟩ := execEncsz_next h
    exact ⟨rfl, rfl⟩
  | enc pad =>
    obtain ⟨_, _, _, _, _, _, _, rfl⟩ := execEnc_next h
    exact ⟨rfl, rfl⟩
  | decsz pad =>
    obtain ⟨_, _, _, _, ⟨_, rfl⟩ | ⟨_, rfl⟩⟩ := execDecsz_next h <;> exact ⟨rfl, rfl⟩
  | dec pad =>
    obtain ⟨input, _, _, _, _, _, rfl⟩ := execDec_next h
    exact decOutcome_sameRoms pad input s
  | fwd =>
    obtain ⟨_, ⟨_, rfl⟩ | ⟨_, rfl⟩⟩ := execFwd_next h <;> exact ⟨rfl, rfl⟩
  | rev =>
    obtain ⟨_, ⟨_, rfl⟩ | ⟨_, rfl⟩⟩ := execRev_next h <;> exact ⟨rfl, rfl⟩

theorem runWord_sameRoms {w : Byte} {s t : State} (h : runWord w s = .next t) :
    SameRoms s t := by
  obtain ⟨i, _, hi⟩ | ⟨_, _, rfl⟩ := runWord_next h
  · exact exec_sameRoms hi
  · exact ⟨rfl, rfl⟩

/-- No register write touches a ROM. A write to CMD is the command it issues, run in a state with the
same ROMs. -/
theorem hostWrite_sameRoms {index v : Nat} {s t : State} (h : hostWrite index v s = .next t) :
    SameRoms s t := by
  obtain ⟨_, _, hrun⟩ | ⟨_, _, rfl⟩ | ⟨_, _, rfl⟩ := hostWrite_next h
  · have issued : SameRoms s (s.setCmd (BitVec.ofNat 8 v)) := ⟨rfl, rfl⟩
    exact issued.trans (runWord_sameRoms hrun)
  · exact ⟨rfl, rfl⟩
  · exact ⟨rfl, rfl⟩

/-- A step leaves both ROMs as they are, or it is a reset, which puts their contents back. -/
theorem step_sameRoms_or_reset {s t : State} (h : step s = .next t) :
    SameRoms s t ∨ t = resetBlock s.advance := by
  obtain ⟨_, rfl⟩ | ⟨_, rfl⟩ | ⟨_, rfl⟩ | ⟨_, rfl⟩ | ⟨_, _, _, hwrite⟩ | hrest := step_next h
  · exact .inl ⟨rfl, rfl⟩
  · exact .inl ⟨rfl, rfl⟩
  · exact .inl ⟨rfl, rfl⟩
  · exact .inl ⟨rfl, rfl⟩
  · have moved : SameRoms s s.advance := ⟨rfl, rfl⟩
    exact .inl (moved.trans (hostWrite_sameRoms hwrite))
  · obtain ⟨_, rfl⟩ | ⟨_, rfl⟩ | ⟨_, rfl⟩ | ⟨_, hreset⟩ := hrest
    · exact .inl ⟨rfl, rfl⟩
    · exact .inl ⟨rfl, rfl⟩
    · exact .inl ⟨rfl, rfl⟩
    · exact .inr hreset

/-- Settles O50: the reset state holds both images, and a step keeps the ROMs or resets them. -/
theorem stepKeepsTheRoms : Obligations.StepKeepsTheRoms := by
  refine ⟨romsIntact_reset, fun s t hs h => ?_⟩
  obtain hsame | rfl := step_sameRoms_or_reset h
  · exact hs.of_sameRoms hsame
  · exact romsIntact_resetBlock _

/-! ## Refused register transactions -/

theorem step_of_nextLine {s : State} {line : HostLine} (h : nextLine s = some line) :
    step s = performLine line s := by
  rw [step, h]

theorem hostWrite_readOnly_or_absent {index : Nat} (h : 3 ≤ index) (v : Nat) (s : State) :
    hostWrite index v s = .refused .hostAccess := by
  obtain ⟨k, rfl⟩ := Nat.exists_eq_add_of_le' h
  rfl

theorem hostRead_absent {index : Nat} (h : 6 ≤ index) (s : State) :
    hostRead index s = .refused .hostAccess := by
  obtain ⟨k, rfl⟩ := Nat.exists_eq_add_of_le' h
  rfl

/-- Settles O8: the host line is the transaction, and the transaction is refused by its index. -/
theorem readOnlyAndAbsentRegistersAreRefused :
    Obligations.ReadOnlyAndAbsentRegistersAreRefused := by
  refine fun s index => ⟨fun v hi hline => ?_, fun hi hline => ?_⟩
  · rw [step_of_nextLine hline]
    exact hostWrite_readOnly_or_absent hi _ _
  · rw [step_of_nextLine hline]
    exact hostRead_absent hi _

/-! ## The two tables -/

/-- The reverse lookup gives each code point back, so no symbol stands twice in the forward table
(10_state.md R28, R32). -/
theorem fwdLookup_fwdImage_injective : Function.Injective (fwdLookup fwdImage) := fun i j h =>
  Option.some.inj (by rw [← revLookup_fwdLookup i, h, revLookup_fwdLookup])

/-- Settles O18: the consistency of the two images, with the forward entries distinct and none of them
the pad character. -/
theorem tablesAreConsistent : Obligations.TablesAreConsistent := by
  obtain ⟨hback, hsentinel⟩ := romImages_consistent
  exact ⟨hback, hsentinel, fun _ _ => @fwdLookup_fwdImage_injective _ _,
    fwdLookup_ne_padChar⟩

end Sys2Proof.Machine
end

section
/-! PROOFS. The buffers: the bound checks of the commands on IN and OUT (20_memory.md R44), in the
order of 60_exceptions.md R102. -/

namespace Sys2Proof.Machine

open Sys2Proof.Spec

/-! ## The bound checks -/

/-- The first check after the registers: ARG against IN_LEN. -/
theorem exec_inOverrun {i : Instr} {s : State} (harg : s.arg.written = true)
    (hcap : writesOut i = true → s.outCap.written = true) (hreads : readsIn i = true)
    (hover : memSize s.inBuf < s.arg.value) : exec i s = .fault .inOverrun := by
  cases i with
  | enc pad =>
    rw [exec, execEnc, withOperand_written harg, withOperand_written (hcap rfl),
      withInput_overrun hover]
  | decsz pad => rw [exec, execDecsz, withOperand_written harg, withInput_overrun hover]
  | dec pad =>
    rw [exec, execDec, withOperand_written harg, withOperand_written (hcap rfl),
      withInput_overrun hover]
  | encsz pad => cases hreads
  | fwd => cases hreads
  | rev => cases hreads

/-- The check after the input is there: OUT_CAP against OUT_LEN. -/
theorem exec_outOverrun {i : Instr} {s : State} {input : List Byte} (harg : s.arg.written = true)
    (hcap : s.outCap.written = true) (hwrites : writesOut i = true)
    (hinput : inputBytes s.inBuf s.arg.value = some input)
    (hover : memSize s.outBuf < s.outCap.value) : exec i s = .fault .outOverrun := by
  cases i with
  | enc pad =>
    rw [exec, execEnc, withOperand_written harg, withOperand_written hcap, withInput_some hinput,
      withCapacity_overrun hover]
  | dec pad =>
    rw [exec, execDec, withOperand_written harg, withOperand_written hcap, withInput_some hinput,
      withCapacity_overrun hover]
  | encsz pad => cases hwrites
  | decsz pad => cases hwrites
  | fwd => cases hwrites
  | rev => cases hwrites

/-- Settles O40: each overrun fails its own check; for OUT, ARG within IN_LEN makes the input
available in canonical form, so the check of IN passes before. -/
theorem bufferOverrunsFault : Obligations.BufferOverrunsFault := by
  refine fun s i harg hcap => ⟨exec_inOverrun harg hcap, fun hwrites hform hbound hover => ?_⟩
  obtain ⟨input, hinput⟩ := inputBytes_exists hform hbound
  exact exec_outOverrun harg (hcap hwrites) hwrites hinput hover

end Sys2Proof.Machine
end

section
/-! PROOFS. The encoding: the fields of a command word as numbers (30_encoding.md R56), and the three
reasons for which DecodeCmd refuses them (R57, R58, R59). -/

namespace Sys2Proof

/-! ## The fields as numbers -/

theorem fieldsOf_rsv_toNat (w : Byte) : (fieldsOf w).rsv.toNat = w.toNat / 16 := by
  rw [fieldsOf, BitVec.extractLsb'_toNat, Nat.shiftRight_eq_div_pow]
  omega

theorem fieldsOf_op_toNat (w : Byte) : (fieldsOf w).op.toNat = w.toNat % 8 := by
  rw [fieldsOf, BitVec.extractLsb'_toNat, Nat.shiftRight_zero]

theorem fieldsOf_pad (w : Byte) : (fieldsOf w).pad = decide (w.toNat / 8 % 2 = 1) := by
  rw [fieldsOf, BitVec.getLsbD, Nat.testBit_eq_decide_div_mod_eq]

theorem fieldsOf_rsv_eq_zero_iff (w : Byte) : (fieldsOf w).rsv = 0 ↔ w.toNat / 16 = 0 := by
  rw [← BitVec.toNat_inj, fieldsOf_rsv_toNat]
  rfl

/-! ## The fields that DecodeCmd refuses -/

theorem decodeFields_of_rsv_ne_zero {f : CmdFields} (h : f.rsv ≠ 0) :
    decodeFields f = .illegal .reservedBits := if_pos h

theorem decodeFields_of_reservedOp {f : CmdFields} (hrsv : f.rsv = 0) (hop : 6 ≤ f.op.toNat) :
    decodeFields f = .illegal .reservedOp := by
  obtain ⟨rsv, pad, op⟩ := f
  subst hrsv
  have hcases : op = 6 ∨ op = 7 := by
    simp only at hop
    bv_omega
  obtain rfl | rfl := hcases <;> rfl

theorem decodeFields_of_padOnTableRead {f : CmdFields} (hrsv : f.rsv = 0) (hpad : f.pad = true)
    (hop : f.op.toNat = 4 ∨ f.op.toNat = 5) : decodeFields f = .illegal .padOnTableRead := by
  obtain ⟨rsv, pad, op⟩ := f
  subst hrsv hpad
  obtain h | h := hop
  · obtain rfl : op = 4 := BitVec.eq_of_toNat_eq h
    rfl
  · obtain rfl : op = 5 := BitVec.eq_of_toNat_eq h
    rfl

/-- Settles O3: the three clauses are the three refusals of DecodeCmd, with each field read as a
number from the word. -/
theorem illegalWordsByTheirBits : Obligations.IllegalWordsByTheirBits := by
  refine fun w => ⟨fun hrsv => ?_, fun hrsv hop => ?_, fun hrsv hpad hop => ?_⟩
  · exact decodeFields_of_rsv_ne_zero (mt (fieldsOf_rsv_eq_zero_iff w).mp hrsv)
  · refine decodeFields_of_reservedOp ((fieldsOf_rsv_eq_zero_iff w).mpr hrsv) ?_
    rwa [fieldsOf_op_toNat]
  · refine decodeFields_of_padOnTableRead ((fieldsOf_rsv_eq_zero_iff w).mpr hrsv) ?_ ?_
    · rw [fieldsOf_pad, hpad]
      rfl
    · rwa [fieldsOf_op_toNat]

end Sys2Proof
end

section
/-! PROOFS. The table read-outs: what FWD and REV answer for each operand, and the entries they read
from the two images (40_lut.md R70, R71). -/

namespace Sys2Proof.Machine

open Sys2Proof.Spec

/-! ## The entries of intact ROMs as numbers -/

theorem RomsIntact.fwdLookup_eq_symbolOf {s : State} (hs : RomsIntact s) {c : Nat} (h : c < 32) :
    (fwdLookup s.fwdRom (BitVec.ofNat 5 c)).toNat = symbolOf c := by
  rw [hs.1, fwdLookup_fwdImage, BitVec.toNat_ofNat, Nat.mod_eq_of_lt h, symbolOf]

theorem codeOf_getD (b d : Nat) :
    (codeOf b).getD d =
      if 0x41 ≤ b ∧ b ≤ 0x5A then b - 0x41
      else if 0x32 ≤ b ∧ b ≤ 0x37 then b - 0x32 + 26
      else d := by
  rw [codeOf, apply_ite (Option.getD · d), apply_ite (Option.getD · d)]
  rfl

theorem RomsIntact.revEntry_eq_codeOf {s : State} (hs : RomsIntact s) {b : Nat} (h : b < 256) :
    (revEntry s.revRom (BitVec.ofNat 8 b)).toNat = (codeOf b).getD 0xFF := by
  rw [hs.2, revEntry_revImage, BitVec.toNat_ofNat, Nat.mod_eq_of_lt h, codeOf_getD]
  rfl

/-! ## What FWD and REV answer -/

section
variable {s : State}

theorem execFwd_illegalOperand (hw : s.arg.written = true) (h : 32 ≤ s.arg.value) :
    execFwd s = .next (raiseError .illegalOperand s.arg.value s) := by
  rw [execFwd, withOperand_written hw, if_pos h]

theorem execFwd_reads (hw : s.arg.written = true) (h : s.arg.value < 32) :
    execFwd s =
      .next (complete (s.setResult (fwdLookup s.fwdRom (BitVec.ofNat 5 s.arg.value)).toNat)) := by
  rw [execFwd, withOperand_written hw, if_neg (Nat.not_le.mpr h)]

theorem execRev_illegalOperand (hw : s.arg.written = true) (h : 256 ≤ s.arg.value) :
    execRev s = .next (raiseError .illegalOperand s.arg.value s) := by
  rw [execRev, withOperand_written hw, if_pos h]

theorem execRev_reads (hw : s.arg.written = true) (h : s.arg.value < 256) :
    execRev s =
      .next (complete (s.setResult (revEntry s.revRom (BitVec.ofNat 8 s.arg.value)).toNat)) := by
  rw [execRev, withOperand_written hw, if_neg (Nat.not_le.mpr h)]

end

/-- Settles O20: ARG decides which of its three ends FWD takes, and an intact forward ROM holds the
symbol of the code point. -/
theorem fwdReadsTheForwardTable : Obligations.FwdReadsTheForwardTable := by
  refine ⟨rfl, fun s hs => ⟨fun hw => ?_, fun hw h => ?_, fun hw h => ?_⟩⟩
  · rw [exec, execFwd, withOperand_unwritten hw]
  · exact execFwd_illegalOperand hw h
  · rw [exec, execFwd_reads hw h, hs.fwdLookup_eq_symbolOf h]
    rfl

/-- Settles O21: ARG decides which of its three ends REV takes, and an intact reverse ROM holds the
code point of the byte, or the sentinel 0xFF. -/
theorem revReadsTheReverseTable : Obligations.RevReadsTheReverseTable := by
  refine ⟨rfl, fun s hs => ⟨fun hw => ?_, fun hw h => ?_, fun hw h => ?_⟩⟩
  · rw [exec, execRev, withOperand_unwritten hw]
  · exact execRev_illegalOperand hw h
  · rw [exec, execRev_reads hw h, hs.revEntry_eq_codeOf h]
    rfl

end Sys2Proof.Machine
end

section
/-! PROOFS. The encoder: the spec's counts of symbols and pad characters are the sizes EncSize computes
(41_encode.md R72, R77), what ENCSZ answers (R73), and the shape of what ENC stores in OUT (R78). -/

namespace Sys2Proof.Machine

open Sys2Proof.Spec

/-! ## The spec's counts -/

theorem dataLength_eq_dataSymbols (n : Nat) : dataLength n = dataSymbols n := by
  have tail : ∀ r < 5, [0, 2, 4, 5, 7].getD r 0 = tailSymbols r := by decide
  rw [dataLength, dataSymbols, tail _ (Nat.mod_lt n (by decide))]

theorem encodedLength_false (n : Nat) : encodedLength false n = dataLength n := rfl

/-- The symbols and the pad characters of a tail fill one group. -/
theorem encodedLength_true (n : Nat) : encodedLength true n = 8 * ((n + 4) / 5) := by
  have fills : ∀ r < 5,
      [0, 2, 4, 5, 7].getD r 0 + [0, 6, 4, 3, 1].getD r 0 = 8 * ((r + 4) / 5) := by decide
  have := fills _ (Nat.mod_lt n (by decide))
  rw [encodedLength, dataLength, padLength, if_pos rfl]
  omega

theorem encSize_eq_encodedLength (n : Nat) (pad : Bool) : encSize n pad = encodedLength pad n := by
  cases pad with
  | false => rw [encSize_unpadded, encodedLength_false, dataLength_eq_dataSymbols, dataSymbols]
  | true => rw [encSize_padded, encodedLength_true]

theorem encodedLength_true_mod (n : Nat) : encodedLength true n % 8 = 0 := by
  rw [encodedLength_true, Nat.mul_mod_right]

theorem encodedLength_false_mod (n : Nat) : encodedLength false n % 8 ∈ [0, 2, 4, 5, 7] := by
  have tail : ∀ r < 5, [0, 2, 4, 5, 7].getD r 0 % 8 ∈ [0, 2, 4, 5, 7] := by decide
  rw [encodedLength_false, dataLength, Nat.mul_add_mod]
  exact tail _ (Nat.mod_lt n (by decide))

/-! ## What ENCSZ answers -/

/-- Settles O23: the written flag of ARG and the width decide which of its three ends ENCSZ takes, and
the size it computes is the spec's. -/
theorem encszWritesTheEncodedSize : Obligations.EncszWritesTheEncodedSize := by
  refine ⟨rfl, rfl, fun s pad => ⟨fun hw => ?_, fun hw hwide => ?_, fun hw hfits => ?_⟩⟩
  · rw [exec, execEncsz, withOperand_unwritten hw]
  · rw [exec, execEncsz, withOperand_written hw, withWidth_refused hwide]
  · rw [exec, execEncsz, withOperand_written hw, withWidth_fits hfits, encSize_eq_encodedLength]
    rfl

/-! ## What ENC stores -/

/-- A symbol of the alphabet has its code point back in the spec's own terms (10_state.md R31). -/
theorem codeOf_fwdLookup (i : CodePoint) :
    codeOf (fwdLookup fwdImage i).toNat = some i.toNat := by
  revert i
  decide

theorem isSymbol_of_fwdLookup {m : Memory} {k : Nat} {i : CodePoint}
    (h : readByte m k = some (fwdLookup fwdImage i)) : isSymbol m k := by
  rw [isSymbol, byteAt, h, Option.getD_some, codeOf_fwdLookup, Option.isSome_some]

/-- ENC reports the size, and below it OUT reads as the encoding of the input (41_encode.md R76): the
bytes fit in OUT because the size is at most OUT_CAP. -/
theorem execEnc_stores {pad : Bool} {s t : State} (hout : Memory.wf s.outBuf)
    (h : execEnc pad s = .next t) :
    t.result.value = encSize s.arg.value pad ∧
      ∃ input : List Byte, input.length = s.arg.value ∧
        ∀ k < encSize s.arg.value pad, readByte t.outBuf k = (encodeBytes s.fwdRom pad input)[k]? := by
  obtain ⟨input, -, -, hinput, hcap, -, hsize, rfl⟩ := execEnc_next h
  obtain ⟨-, hlen, -⟩ := inputBytes_spec hinput
  have hbytes : (encodeBytes s.fwdRom pad input).length = encSize s.arg.value pad := by
    rw [encodeBytes_length, hlen]
  refine ⟨rfl, input, hlen, fun k hk => ?_⟩
  have hread := readByte_writeRun_inside hout 0 (encodeBytes s.fwdRom pad input)
    (by omega) (i := k) (by omega)
  rwa [Nat.zero_add] at hread

/-- Settles O25: OUT reads as the encoding below RESULT, whose bytes are symbols up to the last data
symbol and pad characters past it. -/
theorem encOutputIsSymbolsThenPads : Obligations.EncOutputIsSymbolsThenPads := by
  intro s t pad hout hroms h
  obtain ⟨hresult, input, hlen, hread⟩ := execEnc_stores hout h
  have hsize := encSize_eq_encodedLength s.arg.value pad
  have hdata : dataLength s.arg.value = dataSymbols input.length := by
    rw [dataLength_eq_dataSymbols, hlen]
  rw [hresult]
  refine ⟨hsize, fun k hk => ?_, fun k hk hk' => ?_, ?_, ?_⟩
  · have hk' : k < encSize s.arg.value pad := by
      rw [hsize]
      exact Nat.lt_of_lt_of_le hk (Nat.le_add_right _ _)
    exact isSymbol_of_fwdLookup
      (by rw [hread k hk', hroms.1, encodeBytes_symbol fwdImage pad input (hdata ▸ hk)])
  · rw [byteAt, hread k hk', encodeBytes_pad s.fwdRom pad input (hdata ▸ hk) (hlen.symm ▸ hk')]
    rfl
  · rintro rfl
    rw [hsize]
    exact encodedLength_true_mod _
  · rintro rfl
    rw [hsize]
    exact encodedLength_false_mod _

end Sys2Proof.Machine
end

section
/-! PROOFS. The decoder: the spec's words for lengths, pad runs and symbols are the model's
(42_decode.md R79, R80, R83), the stripped lengths (R82), what DEC answers when its checks have passed
(R87, R90, R91, R92), and the bits a tail leaves over (R86). -/

namespace Sys2Proof.Machine

open Sys2Proof.Spec

/-! ## Lengths and pad runs -/

theorem acceptsLength_iff_lengthAccepted (pad : Bool) (len : Nat) :
    acceptsLength pad len ↔ lengthAccepted pad len := by
  cases pad with
  | true => rfl
  | false =>
    simp only [acceptsLength, lengthAccepted, Bool.false_eq_true, if_false]
    omega

theorem padCount_eq_countedPad (bs : List Byte) : padCount bs = countedPad (padRun bs) := by
  simp [padCount, countedPad]

theorem countedPad_le (run : Nat) : countedPad run ≤ run := by
  unfold countedPad
  split <;> omega

theorem countedPad_eq_self_iff (run : Nat) : countedPad run = run ↔ run ∈ [0, 1, 3, 4, 6] := by
  simp only [countedPad, List.mem_cons, List.not_mem_nil, or_false]
  split <;> omega

theorem strippedLen_le (len run : Nat) : strippedLen len run ≤ len := by
  unfold strippedLen
  split <;> omega

theorem strippedLength_eq_strippedLen {bs : List Byte} {run : Nat} (h : EndsInRun bs run) :
    strippedLength bs = strippedLen bs.length run := by
  rw [strippedLength, strippedLen, padCount_eq_countedPad, padRun_eq h]

/-- Settles O29: an accepted length strips to one of five remainders, and at each of them
`(5 * L') div 8` is the listed size. -/
theorem strippedLengthsAndTheirSizes : Obligations.StrippedLengthsAndTheirSizes := by
  intro pad input size stripped h
  obtain ⟨hacc, hok⟩ | ⟨-, hinvalid⟩ := decLen_cases pad input
  · obtain ⟨rfl, rfl⟩ := DecLen.ok.inj (hok.symm.trans h)
    have hmod := strippedLength_mod hacc
    simp only [List.mem_cons, List.not_mem_nil, or_false] at hmod
    omega
  · rw [hinvalid] at h
    cases h

/-! ## The bytes of the input -/

section
variable {m : Memory} {n i : Nat} {input : List Byte}

theorem byteAt_eq_padChar_iff (h : inputBytes m n = some input) (hi : i < n) :
    byteAt m i = 0x3D ↔ input[i]? = some padChar := by
  obtain ⟨-, hlen, hread⟩ := inputBytes_spec h
  rw [byteAt, hread i hi, List.getElem?_eq_getElem (by omega), Option.getD_some, Option.some_inj,
    ← BitVec.toNat_inj]
  rfl

theorem endsInRun_of_padRunIs {run : Nat} (h : inputBytes m n = some input)
    (hrun : padRunIs m n run) : EndsInRun input run := by
  obtain ⟨-, hlen, -⟩ := inputBytes_spec h
  obtain ⟨hle, hpads, hstop⟩ := hrun
  refine ⟨by omega, fun j hj => ?_, fun hlt => ?_⟩
  · rw [hlen]
    exact (byteAt_eq_padChar_iff h (by omega)).mp (hpads j hj)
  · rw [hlen, ne_eq, ← byteAt_eq_padChar_iff h (by omega)]
    exact hstop (by omega)

/-- The reverse table finds exactly the bytes that are symbols in the spec's terms
(10_state.md R31). -/
theorem revLookup_isSome_eq_codeOf (b : Byte) :
    (revLookup revImage b).isSome = (codeOf b.toNat).isSome := by
  revert b
  decide

theorem isSymbol_iff_revLookup {b : Byte} (h : inputBytes m n = some input)
    (hb : input[i]? = some b) : isSymbol m i ↔ (revLookup revImage b).isSome = true := by
  obtain ⟨-, hlen, hread⟩ := inputBytes_spec h
  obtain ⟨hi, -⟩ := List.getElem?_eq_some_iff.mp hb
  rw [isSymbol, byteAt, hread i (hlen ▸ hi), hb, Option.getD_some, revLookup_isSome_eq_codeOf]

theorem not_isSymbol_of_pad (h : byteAt m i = 0x3D) : ¬ isSymbol m i := by
  rw [isSymbol, h]
  decide

/-- Symbols followed by `=` characters end in the run of these. -/
theorem padRunIs_of_symbols_then_pads {run : Nat} (hrun : run ≤ n)
    (hsymbols : ∀ i < n - run, isSymbol m i)
    (hpads : ∀ i, n - run ≤ i → i < n → byteAt m i = 0x3D) : padRunIs m n run :=
  ⟨hrun, fun j hj => hpads _ (by omega) (by omega),
    fun hlt hpad => not_isSymbol_of_pad hpad (hsymbols _ (by omega))⟩

end

/-! ## What DEC answers when its checks have passed -/

@[simp] theorem statusWord_okCode : statusWord okCode = 0 := rfl

/-- The codes of the three errors DEC raises (60_exceptions.md R93). -/
@[simp] theorem statusWord_errorCode_of_dec :
    statusWord (errorCode .invalidCharacter) = 1 ∧
      statusWord (errorCode .invalidInputLength) = 2 ∧
      statusWord (errorCode .outputTooSmall) = 3 := ⟨rfl, rfl, rfl⟩

section
variable {pad : Bool} {s : State} {input : List Byte}

theorem decOutcome_rejected (h : ¬ lengthAccepted pad input.length) :
    decOutcome pad input s =
      raiseInDec .invalidInputLength input.length s.outCap.value s := by
  rw [decOutcome, decLen_rejected h]

theorem decOutcome_bad {index : Nat} (hacc : lengthAccepted pad input.length)
    (hroom : 5 * strippedLength input / 8 ≤ s.outCap.value)
    (hbad : symbolValues s.revRom 0 (input.take (strippedLength input)) = .bad index) :
    decOutcome pad input s = raiseInDec .invalidCharacter index s.outCap.value s := by
  simp only [decOutcome, decLen_accepted hacc, if_neg (Nat.not_lt.mpr hroom), hbad]

theorem decOutcome_codes {cs : List CodePoint} (hacc : lengthAccepted pad input.length)
    (hroom : 5 * strippedLength input / 8 ≤ s.outCap.value)
    (hcodes : symbolValues s.revRom 0 (input.take (strippedLength input)) = .codes cs) :
    decOutcome pad input s =
      complete ((s.storeOut (decodeCodes cs)).setResult (5 * strippedLength input / 8)) := by
  simp only [decOutcome, decLen_accepted hacc, if_neg (Nat.not_lt.mpr hroom), hcodes]

theorem exec_dec_of_ready (pad : Bool) (hin : InputReady s) (hout : OutputReady s)
    (hwidth : 5 * s.arg.value < 2 ^ Config.wLen) :
    ∃ input, inputBytes s.inBuf s.arg.value = some input ∧ input.length = s.arg.value ∧
      exec (.dec pad) s = .next (decOutcome pad input s) := by
  obtain ⟨input, hinput⟩ := inputBytes_exists hin.inForm hin.inBound
  obtain ⟨-, hlen, -⟩ := inputBytes_spec hinput
  exact ⟨input, hinput, hlen,
    execDec_runs hin.argWritten hout.capWritten hinput hout.outBound hwidth⟩

/-- Raising in DEC changes no more than an error of DEC may (60_exceptions.md R96, R97). -/
theorem raiseInDec_decErrorState (e : ErrorKind) (info : Nat) :
    DecErrorState s (raiseInDec e info s.outCap.value s) (statusWord (errorCode e)) info := by
  refine ⟨rfl, memSize_writeRun _ _ _, fun a ha => readByte_writeRun_outside _ _ _ (.inr ?_)⟩
  rwa [freeBytes_length, Nat.zero_add]

theorem decErrorState_status {t : State} {code : Byte} {info : Nat}
    (h : DecErrorState s t code info) : t.status.value = code :=
  congrArg (·.status.value) h.1

/-- An input length that DecLen rejects, before any other error (42_decode.md R80). -/
theorem exec_dec_rejectedLength (hin : InputReady s) (hout : OutputReady s)
    (hwidth : 5 * s.arg.value < 2 ^ Config.wLen) (hrej : ¬ acceptsLength pad s.arg.value) :
    ∃ t, exec (.dec pad) s = .next t ∧ DecErrorState s t 2 s.arg.value := by
  obtain ⟨input, -, hlen, hexec⟩ := exec_dec_of_ready pad hin hout hwidth
  rw [acceptsLength_iff_lengthAccepted, ← hlen] at hrej
  rw [decOutcome_rejected hrej, hlen] at hexec
  exact ⟨_, hexec, raiseInDec_decErrorState _ _⟩

section
variable {run : Nat} (hin : InputReady s) (hout : OutputReady s) (hroms : RomsIntact s)
  (hwidth : 5 * s.arg.value < 2 ^ Config.wLen) (hacc : acceptsLength pad s.arg.value)
  (hrun : padRunIs s.inBuf s.arg.value run)
include hin hout hroms hwidth hacc hrun

/-- An accepted length leaves DEC the bytes below the stripped length to look up. -/
theorem exec_dec_acceptedLength :
    ∃ input, exec (.dec pad) s = .next (decOutcome pad input s) ∧
      lengthAccepted pad input.length ∧ strippedLength input = strippedLen s.arg.value run ∧
      (input.take (strippedLength input)).length = strippedLen s.arg.value run ∧
      ∀ i b, (input.take (strippedLength input))[i]? = some b →
        (isSymbol s.inBuf i ↔ (revLookup s.revRom b).isSome = true) := by
  obtain ⟨input, hinput, hlen, hexec⟩ := exec_dec_of_ready pad hin hout hwidth
  have hstrip := strippedLength_eq_strippedLen (endsInRun_of_padRunIs hinput hrun)
  have hle := strippedLength_le input
  rw [hlen] at hstrip
  rw [acceptsLength_iff_lengthAccepted, ← hlen] at hacc
  refine ⟨input, hexec, hacc, hstrip, by rw [List.length_take]; omega, fun i b hb => ?_⟩
  rw [List.getElem?_take, Option.ite_none_right_eq_some] at hb
  rw [hroms.2]
  exact isSymbol_iff_revLookup hinput hb.2

variable (hroom : 5 * strippedLen s.arg.value run / 8 ≤ s.outCap.value)
include hroom

/-- The lowest non-symbol below the stripped length (42_decode.md R83, R92). -/
theorem exec_dec_lowestNonSymbol {index : Nat} (hindex : index < strippedLen s.arg.value run)
    (hbad : ¬ isSymbol s.inBuf index) (hlow : ∀ i < index, isSymbol s.inBuf i) :
    ∃ t, exec (.dec pad) s = .next t ∧ DecErrorState s t 1 index := by
  obtain ⟨input, hexec, hacc, hstrip, hlen, hlookup⟩ :=
    exec_dec_acceptedLength hin hout hroms hwidth hacc hrun
  rw [← hlen] at hindex
  have hb := List.getElem?_eq_getElem hindex
  rw [hlookup index _ hb, Option.not_isSome_iff_eq_none] at hbad
  have hvalues := symbolValues_first 0 hb hbad fun i hi b hb =>
    (hlookup i b hb).mp (hlow i hi)
  rw [decOutcome_bad hacc (hstrip ▸ hroom) hvalues, Nat.zero_add] at hexec
  exact ⟨_, hexec, raiseInDec_decErrorState _ _⟩

/-- Symbols only below the stripped length: DEC stores what their code points decode to
(42_decode.md R84, R85, R87). -/
theorem exec_dec_allSymbols (hall : ∀ i < strippedLen s.arg.value run, isSymbol s.inBuf i) :
    ∃ cs, exec (.dec pad) s = .next (complete
      ((s.storeOut (decodeCodes cs)).setResult (5 * strippedLen s.arg.value run / 8))) := by
  obtain ⟨input, hexec, hacc, hstrip, hlen, hlookup⟩ :=
    exec_dec_acceptedLength hin hout hroms hwidth hacc hrun
  obtain ⟨cs, hcodes⟩ := symbolValues_all 0 fun i b hb => by
    obtain ⟨hi, -⟩ := List.getElem?_eq_some_iff.mp hb
    exact (hlookup i b hb).mp (hall i (hlen ▸ hi))
  rw [decOutcome_codes hacc (hstrip ▸ hroom) hcodes, hstrip] at hexec
  exact ⟨cs, hexec⟩

end

end

/-- Settles O33: the lookup stops at the lowest non-symbol, and DEC raises there. -/
theorem decRejectsTheLowestNonSymbol : Obligations.DecRejectsTheLowestNonSymbol :=
  fun _ _ _ _ hin hout hroms hwidth hacc hrun hroom hindex hbad hlow =>
    exec_dec_lowestNonSymbol hin hout hroms hwidth hacc hrun hroom hindex hbad hlow

/-! ## The inputs DEC accepts -/

/-- The inputs of symbols followed by a run of `=` that a mode accepts (42_decode.md R90). -/
def AcceptedShape (pad : Bool) (len run : Nat) : Prop :=
  if pad then len % 8 = 0 ∧ run ∈ [0, 1, 3, 4, 6]
  else (run = 0 ∧ len % 8 ∈ [0, 2, 4, 5, 7]) ∨ (len % 8 = 0 ∧ run ∈ [1, 3, 4, 6])

theorem acceptsLength_of_acceptedShape {pad : Bool} {len run : Nat}
    (h : AcceptedShape pad len run) : acceptsLength pad len := by
  cases pad with
  | true => exact h.1
  | false =>
    simp only [AcceptedShape, acceptsLength, Bool.false_eq_true, if_false, List.mem_cons,
      List.not_mem_nil, or_false] at h ⊢
    omega

/-- Of the accepted lengths, the accepted shapes are those whose whole run is stripped. -/
theorem acceptedShape_iff_strippedLen_le {pad : Bool} {len run : Nat}
    (hacc : acceptsLength pad len) (hrun : run ≤ len) :
    AcceptedShape pad len run ↔ strippedLen len run ≤ len - run := by
  have hcount := countedPad_eq_self_iff run
  have hle := countedPad_le run
  have hstrip : strippedLen len run ≤ len - run ↔
      if len % 8 = 0 then run ∈ [0, 1, 3, 4, 6] else run = 0 := by
    unfold strippedLen
    split
    · rw [← hcount]
      omega
    · omega
  rw [hstrip]
  cases pad with
  | true =>
    have hmod : len % 8 = 0 := hacc
    simp [AcceptedShape, hmod]
  | false =>
    simp only [AcceptedShape, acceptsLength, Bool.false_eq_true, if_false, List.mem_cons,
      List.not_mem_nil, or_false] at hacc ⊢
    split <;> omega

/-- Settles O36: a rejected length is reported as such; of an accepted one, an `=` is left below the
stripped length exactly when the shape is not one of the listed ones, and DEC raises there. -/
theorem decAcceptsExactlyTheseShapes : Obligations.DecAcceptsExactlyTheseShapes := by
  intro s pad run hin hout hroms hwidth _ hroom hle hsymbols hpads
  change ∃ t, exec (.dec pad) s = .next t ∧
    (t.status.value = 0 ↔ AcceptedShape pad s.arg.value run) ∧
    (t.status.value = 2 ↔ ¬ acceptsLength pad s.arg.value) ∧ _
  by_cases hacc : acceptsLength pad s.arg.value
  · have hrun := padRunIs_of_symbols_then_pads hle hsymbols hpads
    rw [acceptedShape_iff_strippedLen_le hacc hle]
    by_cases hstrip : strippedLen s.arg.value run ≤ s.arg.value - run
    · obtain ⟨cs, hexec⟩ := exec_dec_allSymbols hin hout hroms hwidth hacc hrun (hroom hacc)
        fun i hi => hsymbols i (by omega)
      exact ⟨_, hexec, by simpa using hstrip, by simpa using hacc, .inl rfl⟩
    · have hlen := strippedLen_le s.arg.value run
      obtain ⟨t, hexec, herror⟩ := exec_dec_lowestNonSymbol hin hout hroms hwidth hacc hrun
        (hroom hacc) (index := s.arg.value - run) (by omega)
        (not_isSymbol_of_pad (hpads _ le_rfl (by omega))) hsymbols
      refine ⟨t, hexec, ?_⟩
      rw [decErrorState_status herror]
      exact ⟨iff_of_false (by decide) hstrip, iff_of_false (by decide) (not_not.mpr hacc),
        .inr (.inl rfl)⟩
  · obtain ⟨t, hexec, herror⟩ := exec_dec_rejectedLength hin hout hwidth hacc
    refine ⟨t, hexec, ?_⟩
    rw [decErrorState_status herror]
    exact ⟨iff_of_false (by decide) (mt acceptsLength_of_acceptedShape hacc),
      iff_of_true rfl hacc, .inr (.inr rfl)⟩

/-! ## DECSZ and DEC -/

/-- Settles O37: both commands examine the same bytes, so both reject the length or both compute the
same size. -/
theorem decszAndDecAgree : Obligations.DecszAndDecAgree := by
  intro s d v pad hdecsz hdec
  obtain ⟨input, -, hinput, -, hd⟩ := execDecsz_next hdecsz
  obtain ⟨input', -, -, hinput', -, -, rfl⟩ := execDec_next hdec
  obtain rfl : input = input' := Option.some.inj (hinput.symm.trans hinput')
  obtain ⟨-, hlen, -⟩ := inputBytes_spec hinput
  obtain ⟨hrej, rfl⟩ | ⟨hacc, rfl⟩ := hd
  · rw [decOutcome_rejected (hlen ▸ hrej), hlen]
    simp
  · obtain ⟨hrej, -⟩ | ⟨-, hsmall, e⟩ | ⟨_, -, -, -, e⟩ | ⟨_, -, -, -, e⟩ :=
      decOutcome_cases pad input s
    · exact absurd (hlen ▸ hacc) hrej
    · rw [e]
      simpa using hsmall
    · rw [e]
      simp
    · rw [e]
      simp

/-! ## The bits a tail leaves over -/

/-- The first bytes of an accumulator are its high bits: they do not see the bits below. -/
theorem bytesOf_congr {acc acc' : Accumulator} {count : Nat} (hcount : count ≤ 5)
    (h : acc.toNat / 2 ^ (40 - 8 * count) = acc'.toNat / 2 ^ (40 - 8 * count)) :
    bytesOf acc count = bytesOf acc' count := by
  refine List.map_congr_left fun k hk => BitVec.eq_of_toNat_eq ?_
  rw [List.mem_range] at hk
  have hsplit : 32 - 8 * k = 40 - 8 * count + 8 * (count - 1 - k) := by omega
  rw [byteSlice_toNat, byteSlice_toNat, hsplit, Nat.pow_add, ← Nat.div_div_eq_div_mul,
    ← Nat.div_div_eq_div_mul, h]

/-- Settles O34: a front of 1, 3, 4 or 6 code points fixes the high bits of the accumulator, and the
last code point reaches the bytes without its leftover bits. -/
theorem leftoverBitsAreDiscarded : Obligations.LeftoverBitsAreDiscarded := by
  intro front c d left hshape hbits
  match front with
  | [] | [_, _] | [_, _, _, _, _] => simp at hshape
  | _ :: _ :: _ :: _ :: _ :: _ :: _ :: rest =>
    simp only [List.length_cons] at hshape
    omega
  | [_] | [_, _, _] | [_, _, _, _] | [_, _, _, _, _, _] =>
    obtain rfl : left = _ := by simpa using hshape
    refine bytesOf_congr ((tailBytes_le _).trans (by decide)) ?_
    simp only [packCodes_toNat, tailBytes, List.length_cons, List.length_nil,
      List.cons_append, List.nil_append, List.getD_cons_zero, List.getD_cons_succ, List.getD_nil,
      BitVec.ofNat_eq_ofNat, BitVec.toNat_ofNat]
    omega

end Sys2Proof.Machine
end

section
/-! PROOFS. The round trip (42_decode.md R89): the encoding is its symbols followed by its pad
characters, DEC strips exactly these, and the symbols decode to the bytes encoded. -/

namespace Sys2Proof.Machine

open Sys2Proof.Spec

/-! ## Buffers that hold a list of bytes -/

/-- A buffer that reads as these bytes has them as its input operand. -/
theorem inputBytes_of_reads {m : Memory} {bs : List Byte} (hform : Memory.wf m)
    (hfit : bs.length ≤ memSize m) (h : ∀ k < bs.length, readByte m k = bs[k]?) :
    inputBytes m bs.length = some bs := by
  obtain ⟨cs, hcs⟩ := inputBytes_exists hform hfit
  obtain ⟨-, hlen, hread⟩ := inputBytes_spec hcs
  rw [hcs, Option.some_inj]
  refine List.ext_getElem? fun k => ?_
  by_cases hk : k < bs.length
  · rw [← hread k hk, h k hk]
  · rw [List.getElem?_eq_none (by omega), List.getElem?_eq_none (by omega)]

/-- Bytes stored from index 0 are read back. -/
theorem readByte_writeRun_zero {m : Memory} (h : Memory.wf m) {bs : List Byte}
    (hfit : bs.length ≤ memSize m) {k : Nat} (hk : k < bs.length) :
    readByte (writeRun m 0 bs) k = bs[k]? := by
  have := readByte_writeRun_inside h 0 bs (by omega) hk
  rwa [Nat.zero_add] at this

/-- What ENC examined and what it left: RESULT is the length of the encoding, which OUT reads as
(41_encode.md R76). -/
theorem execEnc_examines_and_stores {pad : Bool} {s t : State} (hout : Memory.wf s.outBuf)
    (h : execEnc pad s = .next t) :
    ∃ input, inputBytes s.inBuf s.arg.value = some input ∧
      t.result.value = (encodeBytes s.fwdRom pad input).length ∧
      ∀ k < t.result.value, readByte t.outBuf k = (encodeBytes s.fwdRom pad input)[k]? := by
  obtain ⟨input, -, -, hinput, hcap, -, hsize, rfl⟩ := execEnc_next h
  obtain ⟨-, hlen, -⟩ := inputBytes_spec hinput
  have hresult : encSize s.arg.value pad = (encodeBytes s.fwdRom pad input).length := by
    rw [encodeBytes_length, hlen]
  refine ⟨input, hinput, hresult, fun k hk => ?_⟩
  rw [complete_result, State.setResult_result, Reg.holding_value] at hk
  exact readByte_writeRun_zero hout (by omega) (by omega)

/-! ## The encoding as an input of DEC -/

theorem countedPad_padLength (pad : Bool) (n : Nat) :
    countedPad (padLength pad n) = padLength pad n := by
  have tail : ∀ r < 5,
      countedPad ([0, 6, 4, 3, 1].getD r 0) = [0, 6, 4, 3, 1].getD r 0 := by decide
  cases pad with
  | false => rfl
  | true => exact tail _ (Nat.mod_lt n (by decide))

theorem dataLength_mod_eight_eq_zero_iff (n : Nat) : dataLength n % 8 = 0 ↔ n % 5 = 0 := by
  have tail : ∀ r < 5, [0, 2, 4, 5, 7].getD r 0 % 8 = 0 ↔ r = 0 := by decide
  rw [dataLength, Nat.mul_add_mod]
  exact tail _ (Nat.mod_lt n (by decide))

/-- Which modes of DEC accept the length of an encoding (42_decode.md R89). -/
theorem lengthAccepted_encodedLength_iff (d m : Bool) (n : Nat) :
    lengthAccepted d (encodedLength m n) ↔ d = m ∨ d = false ∨ n % 5 = 0 := by
  cases m with
  | true =>
    have hmod := encodedLength_true_mod n
    cases d <;> simp [lengthAccepted, hmod]
  | false =>
    cases d with
    | true => simp [lengthAccepted, encodedLength_false, dataLength_mod_eight_eq_zero_iff]
    | false =>
      have hmod := encodedLength_false_mod n
      simp only [List.mem_cons, List.not_mem_nil, or_false] at hmod
      refine iff_of_true ?_ (.inl rfl)
      simp only [lengthAccepted, Bool.false_eq_true, if_false]
      omega

/-- The length of an encoding in the spec's counts: its symbols and its pad characters. -/
theorem encodeBytes_length_eq (rom : Vector Byte 32) (pad : Bool) (bs : List Byte) :
    (encodeBytes rom pad bs).length = dataSymbols bs.length + padLength pad bs.length := by
  rw [encodeBytes_length, encSize_eq_encodedLength, encodedLength, dataLength_eq_dataSymbols]

/-- Padding only adds pad characters: the symbols are the unpadded encoding (41_encode.md R77). -/
theorem encodeBytes_take_dataSymbols (rom : Vector Byte 32) (pad : Bool) (bs : List Byte) :
    (encodeBytes rom pad bs).take (dataSymbols bs.length) = encodeBytes rom false bs := by
  refine List.ext_getElem? fun k => ?_
  by_cases hk : k < dataSymbols bs.length
  · rw [List.getElem?_take_of_lt hk, encodeBytes_symbol rom pad bs hk,
      encodeBytes_symbol rom false bs hk]
  · have hlen : (encodeBytes rom false bs).length = dataSymbols bs.length :=
      encodeBytes_length_eq rom false bs
    rw [List.getElem?_take_eq_none (by omega), List.getElem?_eq_none (by omega)]

/-- The run that ends an encoding is its padding, since no symbol is the pad character
(10_state.md R28). -/
theorem encodeBytes_endsInRun (pad : Bool) (bs : List Byte) :
    EndsInRun (encodeBytes fwdImage pad bs) (padLength pad bs.length) := by
  have hlen := encodeBytes_length_eq fwdImage pad bs
  have hsize := encodeBytes_length fwdImage pad bs
  refine ⟨by omega, fun j hj => encodeBytes_pad fwdImage pad bs (by omega) (by omega),
    fun hlt => ?_⟩
  rw [encodeBytes_symbol fwdImage pad bs (by omega), ne_eq, Option.some_inj]
  exact fwdLookup_ne_padChar _

/-- What DEC strips of an encoding, in either mode, is its padding. -/
theorem strippedLength_encodeBytes (pad : Bool) (bs : List Byte) :
    strippedLength (encodeBytes fwdImage pad bs) = dataSymbols bs.length := by
  have hlen := encodeBytes_length_eq fwdImage pad bs
  rw [strippedLength_eq_strippedLen (encodeBytes_endsInRun pad bs), strippedLen,
    countedPad_padLength]
  split
  · omega
  · next hmod =>
    cases pad with
    | false => exact hlen
    | true =>
      rw [encodeBytes_length, encSize_eq_encodedLength] at hmod
      exact absurd (encodedLength_true_mod _) hmod

/-- DEC of an encoding whose length its mode accepts stores the bytes encoded. -/
theorem decOutcome_encodeBytes {d m : Bool} {bs : List Byte} {s : State}
    (hrom : s.revRom = revImage) (hacc : lengthAccepted d (encodeBytes fwdImage m bs).length)
    (hroom : bs.length ≤ s.outCap.value) :
    decOutcome d (encodeBytes fwdImage m bs) s =
      complete ((s.storeOut bs).setResult bs.length) := by
  obtain ⟨cs, hvalues, hdecode⟩ := encodeBytes_decodes 0 bs
  have hstrip := strippedLength_encodeBytes m bs
  have hcodes : symbolValues s.revRom 0 ((encodeBytes fwdImage m bs).take
      (strippedLength (encodeBytes fwdImage m bs))) = .codes cs := by
    rw [hstrip, encodeBytes_take_dataSymbols, hrom, hvalues]
  have hsize : 5 * strippedLength (encodeBytes fwdImage m bs) / 8 = bs.length :=
    calc 5 * strippedLength (encodeBytes fwdImage m bs) / 8
        = decodedBytes (strippedLength (encodeBytes fwdImage m bs)) :=
          (decodedBytes_eq (strippedLength_mod hacc)).symm
      _ = decodedBytes cs.length := by
          rw [hstrip, (symbolValues_codes hvalues).1, encodeBytes_length_eq]
          rfl
      _ = bs.length := by rw [← decodeCodes_length, hdecode]
  rw [decOutcome_codes hacc (hsize ▸ hroom) hcodes, hdecode, hsize]

/-! ## DEC of what ENC wrote -/

/-- Settles O35: the input of DEC is the encoding that ENC left. A mode that accepts its length stores
the encoded bytes; the one that does not is padded DEC of an unpadded encoding with a tail. -/
theorem decodeOfEncodeGivesTheBytes : Obligations.DecodeOfEncodeGivesTheBytes := by
  intro s t u m d hsroms hsout henc huroms hin hout hwidth harg hroom hcopy
  obtain ⟨input, hinput, hresult, hstored⟩ := execEnc_examines_and_stores hsout henc
  obtain ⟨-, hlen, hread⟩ := inputBytes_spec hinput
  rw [hsroms.1] at hresult hstored
  have hfit : (encodeBytes fwdImage m input).length ≤ memSize u.inBuf :=
    (harg.trans hresult).symm.le.trans hin.inBound
  have hexamined : inputBytes u.inBuf u.arg.value = some (encodeBytes fwdImage m input) := by
    rw [harg, hresult]
    rw [hresult] at hcopy hstored
    exact inputBytes_of_reads hin.inForm hfit fun k hk => (hcopy k hk).trans (hstored k hk)
  have hacc_iff : lengthAccepted d (encodeBytes fwdImage m input).length ↔
      d = m ∨ d = false ∨ s.arg.value % 5 = 0 := by
    rw [encodeBytes_length, encSize_eq_encodedLength, lengthAccepted_encodedLength_iff, hlen]
  refine ⟨_, execDec_runs hin.argWritten hout.capWritten hexamined hout.outBound hwidth,
    fun haccepted => ?_, fun hd hm htail => ?_⟩
  · rw [decOutcome_encodeBytes huroms.2 (hacc_iff.mpr haccepted) (hlen ▸ hroom)]
    refine ⟨rfl, hlen, fun k hk => ?_⟩
    have hcap := hout.outBound
    rw [hread k hk]
    exact readByte_writeRun_zero hout.outForm (by omega) (by omega)
  · have hrejected : ¬ lengthAccepted d (encodeBytes fwdImage m input).length := by
      rw [hacc_iff, hd, hm]
      simpa using htail
    rw [decOutcome_rejected hrejected]
    simp

end Sys2Proof.Machine
end

section
/-! PROOFS. The tables as the spec's code points, with any sentinel in the reverse one (10_state.md R29,
R31, R33). -/

namespace Sys2Proof.Machine

open Sys2Proof.Spec

/-- An entry of the reverse table, with `snt` for the sentinel. -/
def withSentinel (snt v : Byte) : Byte := if v = sentinel then snt else v

/-- The table built with `snt` is the table built with the spec's sentinel, this one replaced: it is so
row by row. -/
theorem revHalves_map_withSentinel (snt : Byte) :
    (revLowHalf sentinel ++ revHighHalf sentinel).map (withSentinel snt) =
      revLowHalf snt ++ revHighHalf snt := by
  have invalid : (revRowInvalid sentinel).map (withSentinel snt) = revRowInvalid snt := rfl
  have row3 : (revRow3 sentinel).map (withSentinel snt) = revRow3 snt := rfl
  have row4 : (revRow4 sentinel).map (withSentinel snt) = revRow4 snt := rfl
  have row5 : (revRow5 sentinel).map (withSentinel snt) = revRow5 snt := rfl
  simp only [revLowHalf, revHighHalf, List.map_append, invalid, row3, row4, row5]

theorem revEntry_revImage_eq_codeOf (b : Byte) :
    (revEntry revImage b).toNat = (codeOf b.toNat).getD 0xFF := by
  have h := romsIntact_reset.revEntry_eq_codeOf b.isLt
  rwa [BitVec.ofNat_toNat, BitVec.setWidth_eq, romsIntact_reset.2] at h

theorem codeOf_lt {b c : Nat} (h : codeOf b = some c) : c < 32 := by
  unfold codeOf at h
  split at h
  · cases h
    omega
  · split at h <;> cases h
    omega

theorem revEntry_revImageWith (snt b : Byte) :
    revEntry (revImageWith snt) b =
      if (codeOf b.toNat).isSome then revEntry revImage b else snt := by
  have hentry : revEntry (revImageWith snt) b = withSentinel snt (revEntry revImage b) := by
    simp only [revEntry, revImage, revImageWith, ← revHalves_map_withSentinel snt,
      Vector.getElem_mk, List.getElem_toArray, List.getElem_map]
  have hcode := revEntry_revImage_eq_codeOf b
  rw [hentry, withSentinel]
  cases hc : codeOf b.toNat with
  | none =>
    rw [hc] at hcode
    exact if_pos (BitVec.eq_of_toNat_eq hcode)
  | some c =>
    have hlt := codeOf_lt hc
    rw [hc, Option.getD_some] at hcode
    refine if_neg fun he => ?_
    rw [he] at hcode
    exact absurd hlt (hcode ▸ by decide)

/-- The port of the reverse ROM as a number: the entry, if it is a code point (40_lut.md R69). -/
theorem revLookup_map_toNat (rom : Vector Byte 256) (b : Byte) :
    (revLookup rom b).map BitVec.toNat =
      if 32 ≤ (revEntry rom b).toNat then none else some (revEntry rom b).toNat := by
  rw [revLookup]
  split
  · rfl
  · rw [Option.map_some, BitVec.extractLsb'_toNat, Nat.shiftRight_zero, Nat.mod_eq_of_lt (by omega)]

/-- The port gives the code points of the spec, whichever value of 32 to 255 the sentinel has. -/
theorem revLookup_revImageWith {snt : Byte} (h : 32 ≤ snt.toNat) (b : Byte) :
    (revLookup (revImageWith snt) b).map BitVec.toNat = codeOf b.toNat := by
  have hcode := revEntry_revImage_eq_codeOf b
  rw [revLookup_map_toNat, revEntry_revImageWith]
  cases hc : codeOf b.toNat with
  | none => exact if_pos h
  | some c =>
    have hlt := codeOf_lt hc
    rw [hc, Option.getD_some] at hcode
    rw [Option.isSome_some, if_pos rfl, hcode, if_neg (by omega)]

/-- The port of the spec's table gives the spec's code points (10_state.md R31). -/
theorem revLookup_revImage (b : Byte) : (revLookup revImage b).map BitVec.toNat = codeOf b.toNat :=
  revLookup_revImageWith (snt := sentinel) (by decide) b

/-- Settles O19: both ports give the spec's code points, and an entry is the sentinel exactly where the
spec has none. -/
theorem sentinelValueIsInvisibleToLookup : Obligations.SentinelValueIsInvisibleToLookup := by
  refine fun snt b h => ⟨?_, revEntry_revImageWith snt b⟩
  refine Option.map_injective (fun _ _ => BitVec.eq_of_toNat_eq) ?_
  rw [revLookup_revImageWith h, revLookup_revImage]

/-- Settles O15: the reset state holds both images, whose entries have the closed forms. -/
theorem resetLeavesRegistersUnwritten : Obligations.ResetLeavesRegistersUnwritten :=
  ⟨rfl, rfl, rfl, rfl, rfl, rfl, fwdLookup_fwdImage, revEntry_revImage_eq_codeOf⟩

end Sys2Proof.Machine
end

section
/-! PROOFS. What a command does to the state: the three shapes of its effect, its bounds, and that the
operands alone decide it (10_state.md R38; 20_memory.md R42, R43; 60_exceptions.md R96, R103). -/

namespace Sys2Proof.Machine

open Sys2Proof.Spec

/-! ## The effect of a command -/

/-- What a command that answers a next state does, apart from the state it does it to. -/
inductive Effect where
  /-- Success: bytes stored in OUT (none but for ENC and DEC) and the value of RESULT. -/
  | wrote (bytes : List Byte) (result : Nat)
  /-- Success of DECSZ: the values of ARG and RESULT. -/
  | stripped (arg result : Nat)
  /-- An error, with the number of bytes of OUT left free (none but for DEC). -/
  | raised (kind : ErrorKind) (info cap : Nat)

/-- The state after the effect. -/
def Effect.apply (s : State) : Effect → State
  | .wrote bytes result => complete ((s.storeOut bytes).setResult result)
  | .stripped arg result => complete ((s.setArg arg).setResult result)
  | .raised kind info cap => raiseInDec kind info cap s

/-- The bytes the effect stores in OUT, from index 0. -/
def Effect.stored (s : State) : Effect → List Byte
  | .wrote bytes _ => bytes
  | .stripped _ _ => []
  | .raised _ _ cap => freeBytes s.freeIdx cap

/-- Every number the effect writes to a register is below `n`. -/
def Effect.Bounded (n : Nat) : Effect → Prop
  | .wrote _ result => result < n
  | .stripped arg result => arg < n ∧ result < n
  | .raised _ info _ => info < n

/-- Which effects a command can have: only DECSZ writes ARG, and IllegalCommand is no command's. -/
def Effect.KindOf (i : Instr) : Effect → Prop
  | .wrote _ _ => True
  | .stripped _ _ => ∃ pad, i = .decsz pad
  | .raised kind _ _ => kind ≠ .illegalCommand

/-- What holds of the effect of command `i` on `s`. -/
structure Effect.Fits (i : Instr) (s : State) (e : Effect) : Prop where
  room : (e.stored s).length ≤ s.outCap.value
  inside : (e.stored s).length ≤ memSize s.outBuf
  quiet : writesOut i = false → e.stored s = []
  bounded : s.arg.value < 2 ^ Config.wLen → e.Bounded (2 ^ Config.wLen)
  kind : e.KindOf i

section
variable (s : State) (e : Effect)

@[simp] theorem Effect.apply_cmd : (e.apply s).cmd = s.cmd := by cases e <;> rfl
@[simp] theorem Effect.apply_outCap : (e.apply s).outCap = s.outCap := by cases e <;> rfl
@[simp] theorem Effect.apply_fwdRom : (e.apply s).fwdRom = s.fwdRom := by cases e <;> rfl
@[simp] theorem Effect.apply_revRom : (e.apply s).revRom = s.revRom := by cases e <;> rfl
@[simp] theorem Effect.apply_inBuf : (e.apply s).inBuf = s.inBuf := by cases e <;> rfl
@[simp] theorem Effect.apply_host : (e.apply s).host = s.host := by cases e <;> rfl
@[simp] theorem Effect.apply_outBuf :
    (e.apply s).outBuf = writeRun s.outBuf 0 (e.stored s) := by cases e <;> rfl
@[simp] theorem Effect.apply_status_written : (e.apply s).status.written = true := by
  cases e <;> rfl
@[simp] theorem Effect.apply_errInfo_written : (e.apply s).errInfo.written = true := by
  cases e <;> rfl

end

/-! ## The operands decide the effect -/

/-- `s'` gives command `i` the same operands as `s`: the registers and ROMs it reads, the size of OUT,
and the bytes of IN it examines. -/
structure SameOperands (i : Instr) (s s' : State) : Prop where
  arg : s'.arg = s.arg
  outCap : s'.outCap = s.outCap
  fwdRom : s'.fwdRom = s.fwdRom
  revRom : s'.revRom = s.revRom
  outSize : memSize s'.outBuf = memSize s.outBuf
  input : readsIn i = true → inputBytes s'.inBuf s.arg.value = inputBytes s.inBuf s.arg.value

theorem SameOperands.refl (i : Instr) (s : State) : SameOperands i s s :=
  ⟨rfl, rfl, rfl, rfl, rfl, fun _ => rfl⟩

/-- Command `i` has effect `e` in every state with the operands of `s`. -/
def HasEffect (i : Instr) (s : State) (e : Effect) : Prop :=
  ∀ s', SameOperands i s s' → exec i s' = .next (e.apply s')

theorem HasEffect.exec_eq {i : Instr} {s : State} {e : Effect} (h : HasEffect i s e) :
    exec i s = .next (e.apply s) := h s (.refl i s)

section
variable {s : State} {pad : Bool} {input : List Byte}

theorem execEncsz_runs (ha : s.arg.written = true) (hw : 8 * s.arg.value + 4 < 2 ^ Config.wLen) :
    execEncsz pad s = .next (complete (s.setResult (encSize s.arg.value pad))) := by
  rw [execEncsz, withOperand_written ha, withWidth_fits hw]

theorem execDecsz_accepts (ha : s.arg.written = true)
    (hi : inputBytes s.inBuf s.arg.value = some input) (hw : 5 * s.arg.value < 2 ^ Config.wLen)
    (hacc : lengthAccepted pad input.length) :
    execDecsz pad s = .next (complete
      ((s.setArg (strippedLength input)).setResult (5 * strippedLength input / 8))) := by
  rw [execDecsz, withOperand_written ha, withInput_some hi, withWidth_fits hw, decLen_accepted hacc]

theorem execDecsz_rejects (ha : s.arg.written = true)
    (hi : inputBytes s.inBuf s.arg.value = some input) (hw : 5 * s.arg.value < 2 ^ Config.wLen)
    (hrej : ¬ lengthAccepted pad input.length) :
    execDecsz pad s = .next (raiseError .invalidInputLength input.length s) := by
  rw [execDecsz, withOperand_written ha, withInput_some hi, withWidth_fits hw, decLen_rejected hrej]

/-- The effect of DEC once its checks have passed (42_decode.md R87). -/
def decEffect (pad : Bool) (input : List Byte) (rom : Vector Byte 256) (cap : Nat) : Effect :=
  match decLen pad input with
  | .invalid len => .raised .invalidInputLength len cap
  | .ok size stripped =>
    if cap < size then .raised .outputTooSmall size cap
    else
      match symbolValues rom 0 (input.take stripped) with
      | .bad index => .raised .invalidCharacter index cap
      | .codes cs => .wrote (decodeCodes cs) size

theorem decOutcome_eq_apply (pad : Bool) (input : List Byte) (s : State) :
    decOutcome pad input s = (decEffect pad input s.revRom s.outCap.value).apply s := by
  rw [decOutcome, decEffect]
  cases decLen pad input with
  | invalid len => rfl
  | ok size stripped =>
    by_cases hroom : s.outCap.value < size
    · simp only [if_pos hroom]
      rfl
    · simp only [if_neg hroom]
      cases symbolValues s.revRom 0 (input.take stripped) <;> rfl

/-- The code points of a stripped input decode to as many bytes as DecLen says (42_decode.md R82). -/
theorem decodeCodes_length_of_accepted {rom : Vector Byte 256} {cs : List CodePoint}
    (hacc : lengthAccepted pad input.length)
    (hcodes : symbolValues rom 0 (input.take (strippedLength input)) = .codes cs) :
    (decodeCodes cs).length = 5 * strippedLength input / 8 := by
  rw [decodeCodes_length, (symbolValues_codes hcodes).1, List.length_take,
    Nat.min_eq_left (strippedLength_le input), decodedBytes_eq (strippedLength_mod hacc)]

/-- The index that the lookup reports is one it examined. -/
theorem symbolValues_bad_lt {rom : Vector Byte 256} {bs : List Byte} {index : Nat}
    (h : symbolValues rom 0 bs = .bad index) : index < bs.length := by
  obtain ⟨j, b, hj, hb, -, -⟩ := symbolValues_bad h
  obtain ⟨hlt, -⟩ := List.getElem?_eq_some_iff.mp hb
  omega

/-- An error of DEC leaves OUT free below OUT_CAP (60_exceptions.md R97); none of them reports more than
ARG. -/
theorem raised_by_dec_fits {kind : ErrorKind} {info : Nat}
    (hcap : s.outCap.value ≤ memSize s.outBuf) (hinfo : info ≤ s.arg.value)
    (hkind : kind ≠ .illegalCommand) :
    (Effect.raised kind info s.outCap.value).Fits (.dec pad) s :=
  ⟨(freeBytes_length _ _).le, (freeBytes_length _ _).trans_le hcap, nofun, hinfo.trans_lt, hkind⟩

theorem decEffect_fits (hlen : input.length = s.arg.value)
    (hcap : s.outCap.value ≤ memSize s.outBuf) :
    (decEffect pad input s.revRom s.outCap.value).Fits (.dec pad) s := by
  have hle := strippedLength_le input
  obtain ⟨hacc, hd⟩ | ⟨-, hd⟩ := decLen_cases pad input
  · by_cases hroom : s.outCap.value < 5 * strippedLength input / 8
    · simp only [decEffect, hd, if_pos hroom]
      exact raised_by_dec_fits hcap (by omega) nofun
    · cases hs : symbolValues s.revRom 0 (input.take (strippedLength input)) with
      | bad index =>
        have hindex := symbolValues_bad_lt hs
        rw [List.length_take] at hindex
        simp only [decEffect, hd, if_neg hroom, hs]
        exact raised_by_dec_fits hcap (by omega) nofun
      | codes cs =>
        have hsize := decodeCodes_length_of_accepted hacc hs
        simp only [decEffect, hd, if_neg hroom, hs]
        refine ⟨?_, ?_, nofun, fun h => ?_, trivial⟩ <;>
          simp only [Effect.stored, Effect.Bounded, hsize] <;> omega
  · simp only [decEffect, hd]
    exact raised_by_dec_fits hcap hlen.le nofun

theorem wrote_nothing_fits {i : Instr} {result : Nat} (h : result < 2 ^ Config.wLen) :
    (Effect.wrote [] result).Fits i s :=
  ⟨Nat.zero_le _, Nat.zero_le _, fun _ => rfl, fun _ => h, trivial⟩

theorem raised_quietly_fits {i : Instr} {kind : ErrorKind} (h : kind ≠ .illegalCommand) :
    (Effect.raised kind s.arg.value 0).Fits i s :=
  ⟨Nat.zero_le _, Nat.zero_le _, fun _ => rfl, id, h⟩

/-- A number below 256 fits in every width the spec allows (00_scope.md R7). -/
theorem byte_fits_width {n : Nat} (h : n < 2 ^ 8) : n < 2 ^ Config.wLen :=
  (h.trans (by decide)).trans_le width_at_least_16

end

/-! ## The effect of each command -/

section
variable {s t : State} {pad : Bool}

theorem execEncsz_hasEffect (h : execEncsz pad s = .next t) :
    ∃ e : Effect, e.Fits (.encsz pad) s ∧ HasEffect (.encsz pad) s e := by
  obtain ⟨ha, hw, -⟩ := execEncsz_next h
  have hle := encSize_le s.arg.value pad
  refine ⟨.wrote [] (encSize s.arg.value pad), wrote_nothing_fits (hle.trans_lt hw),
    fun s' hs => ?_⟩
  rw [← hs.arg] at ha hw ⊢
  exact execEncsz_runs ha hw

theorem execEnc_hasEffect (h : execEnc pad s = .next t) :
    ∃ e : Effect, e.Fits (.enc pad) s ∧ HasEffect (.enc pad) s e := by
  obtain ⟨input, ha, ho, hi, hc, hw, hsize, -⟩ := execEnc_next h
  have hle := encSize_le s.arg.value pad
  have hlen : (encodeBytes s.fwdRom pad input).length = encSize s.arg.value pad := by
    rw [encodeBytes_length, (inputBytes_spec hi).2.1]
  have hroom := hlen.trans_le hsize
  refine ⟨.wrote (encodeBytes s.fwdRom pad input) (encSize s.arg.value pad),
    ⟨hroom, hroom.trans hc, nofun, fun _ => hle.trans_lt hw, trivial⟩, fun s' hs => ?_⟩
  rw [← hs.input rfl] at hi
  rw [← hs.arg] at ha hi hw hsize ⊢
  rw [← hs.outCap] at ho hc hsize
  rw [← hs.outSize] at hc
  rw [← hs.fwdRom]
  exact execEnc_runs ha ho hi hc hw hsize

theorem execDecsz_hasEffect (h : execDecsz pad s = .next t) :
    ∃ e : Effect, e.Fits (.decsz pad) s ∧ HasEffect (.decsz pad) s e := by
  obtain ⟨input, ha, hi, hw, hends⟩ := execDecsz_next h
  have hlen := (inputBytes_spec hi).2.1
  have hle := strippedLength_le input
  obtain ⟨hrej, -⟩ | ⟨hacc, -⟩ := hends
  · refine ⟨.raised .invalidInputLength s.arg.value 0, raised_quietly_fits nofun,
      fun s' hs => ?_⟩
    rw [← hs.input rfl] at hi
    rw [← hlen] at hrej ⊢
    rw [← hs.arg] at ha hi hw
    exact execDecsz_rejects ha hi hw hrej
  · refine ⟨.stripped (strippedLength input) (5 * strippedLength input / 8),
      ⟨Nat.zero_le _, Nat.zero_le _, fun _ => rfl, fun _ => ⟨by omega, by omega⟩, pad, rfl⟩,
      fun s' hs => ?_⟩
    rw [← hs.input rfl] at hi
    rw [← hlen] at hacc
    rw [← hs.arg] at ha hi hw
    exact execDecsz_accepts ha hi hw hacc

theorem execDec_hasEffect (h : execDec pad s = .next t) :
    ∃ e : Effect, e.Fits (.dec pad) s ∧ HasEffect (.dec pad) s e := by
  obtain ⟨input, ha, ho, hi, hc, hw, -⟩ := execDec_next h
  refine ⟨decEffect pad input s.revRom s.outCap.value, decEffect_fits (inputBytes_spec hi).2.1 hc,
    fun s' hs => ?_⟩
  rw [← hs.input rfl] at hi
  rw [← hs.arg] at ha hi hw
  rw [← hs.outCap] at ho hc ⊢
  rw [← hs.outSize] at hc
  rw [← hs.revRom, ← decOutcome_eq_apply]
  exact execDec_runs ha ho hi hc hw

theorem execFwd_hasEffect (h : execFwd s = .next t) :
    ∃ e : Effect, e.Fits .fwd s ∧ HasEffect .fwd s e := by
  obtain ⟨ha, ⟨hbig, -⟩ | ⟨hsmall, -⟩⟩ := execFwd_next h
  · refine ⟨.raised .illegalOperand s.arg.value 0, raised_quietly_fits nofun, fun s' hs => ?_⟩
    rw [← hs.arg] at ha hbig ⊢
    exact execFwd_illegalOperand ha hbig
  · refine ⟨.wrote [] (fwdLookup s.fwdRom (BitVec.ofNat 5 s.arg.value)).toNat,
      wrote_nothing_fits (byte_fits_width (BitVec.isLt _)), fun s' hs => ?_⟩
    rw [← hs.arg] at ha hsmall ⊢
    rw [← hs.fwdRom]
    exact execFwd_reads ha hsmall

theorem execRev_hasEffect (h : execRev s = .next t) :
    ∃ e : Effect, e.Fits .rev s ∧ HasEffect .rev s e := by
  obtain ⟨ha, ⟨hbig, -⟩ | ⟨hsmall, -⟩⟩ := execRev_next h
  · refine ⟨.raised .illegalOperand s.arg.value 0, raised_quietly_fits nofun, fun s' hs => ?_⟩
    rw [← hs.arg] at ha hbig ⊢
    exact execRev_illegalOperand ha hbig
  · refine ⟨.wrote [] (revEntry s.revRom (BitVec.ofNat 8 s.arg.value)).toNat,
      wrote_nothing_fits (byte_fits_width (BitVec.isLt _)), fun s' hs => ?_⟩
    rw [← hs.arg] at ha hsmall ⊢
    rw [← hs.revRom]
    exact execRev_reads ha hsmall

end

/-- Every command that answers a next state has one effect, within its bounds, and has it in every state
with the same operands. -/
theorem exec_hasEffect {i : Instr} {s t : State} (h : exec i s = .next t) :
    ∃ e : Effect, e.Fits i s ∧ t = e.apply s ∧ HasEffect i s e := by
  have hends : ∃ e : Effect, e.Fits i s ∧ HasEffect i s e := by
    cases i with
    | encsz pad => exact execEncsz_hasEffect h
    | enc pad => exact execEnc_hasEffect h
    | decsz pad => exact execDecsz_hasEffect h
    | dec pad => exact execDec_hasEffect h
    | fwd => exact execFwd_hasEffect h
    | rev => exact execRev_hasEffect h
  obtain ⟨e, hfits, heffect⟩ := hends
  exact ⟨e, hfits, Host.Outcome.next.inj (h.symm.trans heffect.exec_eq), heffect⟩

end Sys2Proof.Machine
end

section
/-! PROOFS. Every step: the machine's invariant, the canonical form of the buffers, and the written
flags (10_state.md R25, R30; 20_memory.md R42, R43; 70_reset_and_hazards.md R108). -/

namespace Sys2Proof.Machine

open Sys2Proof.Spec

/-! ## What a step can do -/

/-- A buffer is as it was, or the host supplied it. -/
def KeptOrSupplied (old new : Memory) : Prop := new = old ∨ ∃ bytes, new = bufferOf bytes

theorem KeptOrSupplied.wf {old new : Memory} (h : KeptOrSupplied old new) (hold : Memory.wf old) :
    Memory.wf new := by
  obtain rfl | ⟨bytes, rfl⟩ := h
  · exact hold
  · exact bufferOf_wf bytes

/-- `t` has the registers and the ROMs of `s`, and its buffers but for those the host supplied. -/
structure SameBlock (s t : State) : Prop where
  cmd : t.cmd = s.cmd
  arg : t.arg = s.arg
  outCap : t.outCap = s.outCap
  result : t.result = s.result
  status : t.status = s.status
  errInfo : t.errInfo = s.errInfo
  roms : SameRoms s t
  inBuf : KeptOrSupplied s.inBuf t.inBuf
  outBuf : KeptOrSupplied s.outBuf t.outBuf

/-- Issuing a word, legal or not, has one effect after CMD is written; what it writes fits if ARG
does. -/
theorem runWord_hasEffect {w : Byte} {s t : State} (h : runWord w s = .next t) :
    ∃ e : Effect, t = e.apply s ∧
      (s.arg.value < 2 ^ Config.wLen → e.Bounded (2 ^ Config.wLen)) := by
  obtain ⟨i, -, hexec⟩ | ⟨why, -, rfl⟩ := runWord_next h
  · obtain ⟨e, hfits, rfl, -⟩ := exec_hasEffect hexec
    exact ⟨e, rfl, hfits.bounded⟩
  · exact ⟨.raised .illegalCommand w.toNat 0, rfl, fun _ => byte_fits_width w.isLt⟩

/-- A step is a host line that leaves the registers alone, a write of ARG or OUT_CAP, a write of CMD
with the effect of its word, or a reset. -/
theorem step_next_cases {s t : State} (h : step s = .next t) :
    SameBlock s t ∨
      (∃ v < 2 ^ Config.wLen, t = s.advance.setArg v ∨ t = s.advance.setOutCap v) ∨
      (∃ (w : Byte) (e : Effect), t = e.apply (s.advance.setCmd w) ∧
        (s.arg.value < 2 ^ Config.wLen → e.Bounded (2 ^ Config.wLen))) ∨
      (nextLine s = some .reset ∧ t = resetBlock s.advance) := by
  obtain ⟨-, rfl⟩ | ⟨bytes, rfl⟩ | ⟨count, rfl⟩ | ⟨bytes, rfl⟩ | ⟨index, v, -, hwrite⟩ | hrest :=
    step_next h
  · exact .inl ⟨rfl, rfl, rfl, rfl, rfl, rfl, ⟨rfl, rfl⟩, .inl rfl, .inl rfl⟩
  · exact .inl ⟨rfl, rfl, rfl, rfl, rfl, rfl, ⟨rfl, rfl⟩, .inr ⟨bytes, rfl⟩, .inl rfl⟩
  · exact .inl ⟨rfl, rfl, rfl, rfl, rfl, rfl, ⟨rfl, rfl⟩, .inl rfl, .inr ⟨_, rfl⟩⟩
  · exact .inl ⟨rfl, rfl, rfl, rfl, rfl, rfl, ⟨rfl, rfl⟩, .inl rfl, .inr ⟨bytes, rfl⟩⟩
  · obtain ⟨-, -, hrun⟩ | ⟨-, hv, rfl⟩ | ⟨-, hv, rfl⟩ := hostWrite_next hwrite
    · obtain ⟨e, rfl, hbounded⟩ := runWord_hasEffect hrun
      exact .inr (.inr (.inl ⟨_, e, rfl, hbounded⟩))
    · exact .inr (.inl ⟨_, hv, .inl rfl⟩)
    · exact .inr (.inl ⟨_, hv, .inr rfl⟩)
  · obtain ⟨v, rfl⟩ | ⟨bytes, rfl⟩ | ⟨p, rfl⟩ | ⟨hline, rfl⟩ := hrest
    · exact .inl ⟨rfl, rfl, rfl, rfl, rfl, rfl, ⟨rfl, rfl⟩, .inl rfl, .inl rfl⟩
    · exact .inl ⟨rfl, rfl, rfl, rfl, rfl, rfl, ⟨rfl, rfl⟩, .inl rfl, .inl rfl⟩
    · exact .inl ⟨rfl, rfl, rfl, rfl, rfl, rfl, ⟨rfl, rfl⟩, .inl rfl, .inl rfl⟩
    · exact .inr (.inr (.inr ⟨hline, rfl⟩))

/-! ## The clauses of the invariant -/

theorem Effect.apply_memoriesCanonical {s : State} (hs : MemoriesCanonical s) (e : Effect) :
    MemoriesCanonical (e.apply s) := by
  obtain ⟨hin, hout⟩ := hs
  exact ⟨by rwa [Effect.apply_inBuf], by rw [Effect.apply_outBuf]; exact writeRun_wf hout 0 _⟩

/-- Settles O49: the host supplies buffers in canonical form, an effect writes to indices that OUT has,
and every other step leaves both buffers alone. -/
theorem stepKeepsTheBuffersCanonical : Obligations.StepKeepsTheBuffersCanonical := by
  intro s t hs h
  obtain ⟨hin, hout⟩ := hs
  obtain hsame | ⟨_, _, rfl | rfl⟩ | ⟨w, e, rfl, -⟩ | ⟨-, rfl⟩ := step_next_cases h
  · exact ⟨hsame.inBuf.wf hin, hsame.outBuf.wf hout⟩
  · exact ⟨hin, hout⟩
  · exact ⟨hin, hout⟩
  · exact Effect.apply_memoriesCanonical (s := s.advance.setCmd w) ⟨hin, hout⟩ e
  · exact ⟨hin, hout⟩

theorem Effect.apply_lengthsFit {s : State} (hs : LengthsFit s) {e : Effect}
    (he : e.Bounded (2 ^ Config.wLen)) : LengthsFit (e.apply s) := by
  obtain ⟨harg, hcap, hresult, -⟩ := hs
  cases e with
  | wrote bytes result => exact ⟨harg, hcap, he, Nat.two_pow_pos _⟩
  | stripped arg result => exact ⟨he.1, hcap, he.2, Nat.two_pow_pos _⟩
  | raised kind info cap => exact ⟨harg, hcap, hresult, he⟩

theorem Effect.apply_status_legal (s : State) (e : Effect) : StatusLegal (e.apply s) := by
  have hlegal (code : BitVec 4) (hcode : code.toNat ≤ 5) :
      statusRsv (statusWord code) = 0 ∧ (statusErr (statusWord code)).toNat ≤ 5 :=
    ⟨statusRsv_statusWord code, by rwa [statusErr_statusWord]⟩
  cases e with
  | wrote bytes result => exact hlegal okCode (by decide)
  | stripped arg result => exact hlegal okCode (by decide)
  | raised kind info cap => exact hlegal _ (errorCode_bounds kind).2

/-- Once CMD is written, the flags of an effect agree whatever they were. -/
theorem Effect.apply_flagsCoherent {s : State} (hcmd : s.cmd.written = true) (e : Effect) :
    FlagsCoherent (e.apply s) := by
  have hcmd' : (e.apply s).cmd.written = true := by rw [Effect.apply_cmd, hcmd]
  exact ⟨by rw [hcmd', Effect.apply_status_written], by rw [hcmd', Effect.apply_errInfo_written],
    fun _ => hcmd'⟩

theorem Inv.of_sameBlock {s t : State} (hs : Inv s) (h : SameBlock s t) : Inv t := by
  obtain ⟨⟨hin, hout⟩, hroms, hlengths, hstatus, hflags⟩ := hs
  refine ⟨⟨h.inBuf.wf hin, h.outBuf.wf hout⟩, hroms.of_sameRoms h.roms, ?_, ?_, ?_⟩
  · rwa [LengthsFit, h.arg, h.outCap, h.result, h.errInfo]
  · rwa [StatusLegal, h.status]
  · rwa [FlagsCoherent, h.cmd, h.status, h.errInfo, h.result]

theorem Inv.setArg {s : State} (hs : Inv s) {v : Nat} (hv : v < 2 ^ Config.wLen) :
    Inv (s.setArg v) := by
  obtain ⟨hmem, hroms, ⟨-, hcap, hresult, hinfo⟩, hstatus, hflags⟩ := hs
  exact ⟨hmem, hroms, ⟨hv, hcap, hresult, hinfo⟩, hstatus, hflags⟩

theorem Inv.setOutCap {s : State} (hs : Inv s) {v : Nat} (hv : v < 2 ^ Config.wLen) :
    Inv (s.setOutCap v) := by
  obtain ⟨hmem, hroms, ⟨harg, -, hresult, hinfo⟩, hstatus, hflags⟩ := hs
  exact ⟨hmem, hroms, ⟨harg, hv, hresult, hinfo⟩, hstatus, hflags⟩

theorem Inv.advance {s : State} (hs : Inv s) : Inv s.advance :=
  hs.of_sameBlock ⟨rfl, rfl, rfl, rfl, rfl, rfl, ⟨rfl, rfl⟩, .inl rfl, .inl rfl⟩

/-- Issuing a word keeps the invariant, although it does not hold while CMD is written and the effect is
still to come. -/
theorem Inv.issue {s : State} (hs : Inv s) (w : Byte) {e : Effect}
    (he : e.Bounded (2 ^ Config.wLen)) : Inv (e.apply (s.setCmd w)) := by
  obtain ⟨hmem, hroms, hlengths, -, -⟩ := hs
  exact ⟨Effect.apply_memoriesCanonical (s := s.setCmd w) hmem e,
    hroms.of_sameRoms ⟨Effect.apply_fwdRom _ _, Effect.apply_revRom _ _⟩,
    Effect.apply_lengthsFit (s := s.setCmd w) hlengths he, Effect.apply_status_legal _ e,
    Effect.apply_flagsCoherent rfl e⟩

theorem inv_resetBlock {s : State} (hs : MemoriesCanonical s) : Inv (resetBlock s) :=
  ⟨hs, romsIntact_resetBlock s,
    ⟨Nat.two_pow_pos _, Nat.two_pow_pos _, Nat.two_pow_pos _, Nat.two_pow_pos _⟩,
    ⟨statusRsv_statusWord okCode, Nat.zero_le _⟩, rfl, rfl, nofun⟩

/-- Settles O17: the reset state is what a reset leaves of a block with no buffers. -/
theorem resetMeetsTheInvariant : Obligations.ResetMeetsTheInvariant :=
  inv_resetBlock (s := State.reset) ⟨rfl, rfl⟩

/-- Settles O52: each kind of step keeps the invariant; for an issued word, ARG fits, so what its effect
writes does. -/
theorem stepKeepsTheInvariant : Obligations.StepKeepsTheInvariant := by
  intro s t hs h
  obtain hsame | ⟨v, hv, rfl | rfl⟩ | ⟨w, e, rfl, hbounded⟩ | ⟨-, rfl⟩ := step_next_cases h
  · exact hs.of_sameBlock hsame
  · exact hs.advance.setArg hv
  · exact hs.advance.setOutCap hv
  · exact hs.advance.issue w (hbounded hs.lengths.1)
  · exact inv_resetBlock hs.memories

/-! ## The written flags -/

/-- Every flag that is true in `s` is true in `t`. -/
def KeepsFlags (s t : State) : Prop :=
  (s.cmd.written = true → t.cmd.written = true) ∧
    (s.arg.written = true → t.arg.written = true) ∧
    (s.outCap.written = true → t.outCap.written = true) ∧
    (s.result.written = true → t.result.written = true) ∧
    (s.status.written = true → t.status.written = true) ∧
    (s.errInfo.written = true → t.errInfo.written = true)

theorem SameBlock.keepsFlags {s t : State} (h : SameBlock s t) : KeepsFlags s t := by
  rw [KeepsFlags, h.cmd, h.arg, h.outCap, h.result, h.status, h.errInfo]
  exact ⟨id, id, id, id, id, id⟩

/-- An effect sets the flags of the registers it writes and clears none. -/
theorem Effect.apply_keepsFlags (s : State) (e : Effect) : KeepsFlags s (e.apply s) := by
  cases e with
  | wrote bytes result => exact ⟨id, id, id, fun _ => rfl, fun _ => rfl, fun _ => rfl⟩
  | stripped arg result => exact ⟨id, fun _ => rfl, id, fun _ => rfl, fun _ => rfl, fun _ => rfl⟩
  | raised kind info cap => exact ⟨id, id, id, id, fun _ => rfl, fun _ => rfl⟩

/-- Settles O51: a register write sets its flag, and only a reset clears one. -/
theorem onlyResetClearsTheFlags : Obligations.OnlyResetClearsTheFlags := by
  intro s t hline h
  obtain hsame | ⟨v, -, rfl | rfl⟩ | ⟨w, e, rfl, -⟩ | ⟨hreset, -⟩ := step_next_cases h
  · exact hsame.keepsFlags
  · exact ⟨id, fun _ => rfl, id, id, id, id⟩
  · exact ⟨id, id, fun _ => rfl, id, id, id⟩
  · obtain ⟨hcmd, hrest⟩ := Effect.apply_keepsFlags (s.advance.setCmd w) e
    exact ⟨fun _ => hcmd rfl, hrest⟩
  · exact absurd hreset hline

/-- Settles O16: the reset line leaves what `resetBlock` gives. -/
theorem resetEventClearsTheFlags : Obligations.ResetEventClearsTheFlags := by
  intro s hline
  rw [step_of_nextLine hline]
  exact ⟨_, rfl, rfl, rfl, rfl, rfl, rfl, rfl, romsIntact_resetBlock _, rfl, rfl⟩

end Sys2Proof.Machine
end

section
/-! PROOFS. Statements about every command, from its one effect: the frame, the report in STATUS and
ERR_INFO, and what no command depends on (10_state.md R38; 20_memory.md R42, R43; 60_exceptions.md R96,
R103, R104). -/

namespace Sys2Proof.Machine

open Sys2Proof.Spec

/-! ## What an effect changes -/

section
variable {s : State} {e : Effect} {i : Instr}

theorem Effect.Fits.arg_eq (h : e.Fits i s) (hi : ∀ pad, i ≠ .decsz pad) :
    (e.apply s).arg = s.arg := by
  have hkind := h.kind
  cases e with
  | wrote bytes result => rfl
  | stripped arg result =>
    obtain ⟨pad, rfl⟩ := hkind
    exact absurd rfl (hi pad)
  | raised kind info cap => rfl

theorem Effect.freeIdx_eq (h : e.stored s = []) : (e.apply s).freeIdx = s.freeIdx := by
  cases e with
  | wrote bytes result => rfl
  | stripped arg result => rfl
  | raised kind info cap =>
    have hcap : cap = 0 := by simpa [Effect.stored] using congrArg List.length h
    rw [hcap]
    rfl

/-- The effects that leave STATUS nonzero are the errors. -/
theorem Effect.exists_raised (h : (e.apply s).status.value ≠ 0) :
    ∃ kind info cap, e = .raised kind info cap := by
  cases e with
  | wrote bytes result => exact absurd rfl h
  | stripped arg result => exact absurd rfl h
  | raised kind info cap => exact ⟨kind, info, cap, rfl⟩

end

theorem statusWord_errorCode_ne_zero (kind : ErrorKind) : statusWord (errorCode kind) ≠ 0 := by
  cases kind <;> decide

theorem statusWord_okCode_mem : (statusWord okCode).toNat ∈ [0, 1, 2, 3, 5] := by decide

/-- No command raises IllegalCommand, whose code is 4 (60_exceptions.md R93). -/
theorem statusWord_errorCode_mem {kind : ErrorKind} (h : kind ≠ .illegalCommand) :
    (statusWord (errorCode kind)).toNat ∈ [0, 1, 2, 3, 5] := by
  cases kind with
  | illegalCommand => exact absurd rfl h
  | invalidCharacter | invalidInputLength | outputTooSmall | illegalOperand => decide

/-- Settles O42: an effect leaves what it does not name, and stores no byte at OUT_CAP or above. -/
theorem commandsChangeOnlyTheirTargets : Obligations.CommandsChangeOnlyTheirTargets := by
  intro s t i h
  obtain ⟨e, hfits, rfl, -⟩ := exec_hasEffect h
  refine ⟨Effect.apply_cmd s e, Effect.apply_outCap s e, Effect.apply_fwdRom s e,
    Effect.apply_revRom s e, Effect.apply_inBuf s e, Effect.apply_host s e, hfits.arg_eq,
    ?_, fun hquiet => ⟨?_, Effect.freeIdx_eq (hfits.quiet hquiet)⟩, fun a ha => ?_⟩
  · rw [Effect.apply_outBuf, memSize_writeRun]
  · rw [Effect.apply_outBuf, hfits.quiet hquiet, writeRun]
  · have hroom := hfits.room
    rw [Effect.apply_outBuf, readByte_writeRun_outside _ _ _ (.inr (by omega))]

/-- Settles O43: an effect is a success, which writes RESULT, or one of the errors of a command. -/
theorem commandsReportInStatus : Obligations.CommandsReportInStatus := by
  intro s t i h
  obtain ⟨e, hfits, rfl, -⟩ := exec_hasEffect h
  refine ⟨Effect.apply_status_written s e, Effect.apply_errInfo_written s e, ?_⟩
  have hkind := hfits.kind
  cases e with
  | wrote bytes result => exact ⟨statusWord_okCode_mem, fun _ => ⟨rfl, rfl⟩⟩
  | stripped arg result => exact ⟨statusWord_okCode_mem, fun _ => ⟨rfl, rfl⟩⟩
  | raised kind info cap =>
    exact ⟨statusWord_errorCode_mem hkind,
      fun hok => absurd hok (statusWord_errorCode_ne_zero kind)⟩

/-- Settles O44: the effect is an error, which writes neither register. -/
theorem errorsLeaveResultAndArg : Obligations.ErrorsLeaveResultAndArg := by
  intro s t i h herr
  obtain ⟨e, -, rfl, -⟩ := exec_hasEffect h
  obtain ⟨kind, info, cap, rfl⟩ := Effect.exists_raised herr
  exact ⟨rfl, rfl⟩

/-! ## What a command does not depend on -/

/-- Settles O45: an error leaves the operands, so the command has the same effect again. -/
theorem reissuedCommandReportsTheSameError : Obligations.ReissuedCommandReportsTheSameError := by
  intro s t i h herr
  obtain ⟨e, -, rfl, heffect⟩ := exec_hasEffect h
  obtain ⟨kind, info, cap, rfl⟩ := Effect.exists_raised herr
  exact ⟨_, heffect _ ⟨rfl, rfl, rfl, rfl, memSize_writeRun _ _ _, fun _ => rfl⟩, rfl, rfl⟩

/-- A command that reads IN and answers a next state found ARG bytes there. -/
theorem inputBytes_of_exec_next {s t : State} {i : Instr} (h : exec i s = .next t)
    (hreads : readsIn i = true) : ∃ input, inputBytes s.inBuf s.arg.value = some input := by
  cases i with
  | enc pad =>
    obtain ⟨input, -, -, hinput, -⟩ := execEnc_next h
    exact ⟨input, hinput⟩
  | decsz pad =>
    obtain ⟨input, -, hinput, -⟩ := execDecsz_next h
    exact ⟨input, hinput⟩
  | dec pad =>
    obtain ⟨input, -, -, hinput, -⟩ := execDec_next h
    exact ⟨input, hinput⟩
  | encsz pad => cases hreads
  | fwd => cases hreads
  | rev => cases hreads

theorem Effect.apply_withIn (s : State) (m : Memory) (e : Effect) :
    e.apply { s with inBuf := m } = { e.apply s with inBuf := m } := by
  cases e <;> rfl

/-- Settles O46: buffers that agree below ARG give the same operands. -/
theorem bytesOfInAboveArgAreNotRead : Obligations.BytesOfInAboveArgAreNotRead := by
  intro s t m i hagree h
  obtain ⟨e, -, rfl, heffect⟩ := exec_hasEffect h
  rw [← Effect.apply_withIn]
  refine heffect _ ⟨rfl, rfl, rfl, rfl, rfl, fun hreads => ?_⟩
  obtain ⟨input, hinput⟩ := inputBytes_of_exec_next h hreads
  obtain ⟨hsize, hbytes⟩ := hagree hreads
  exact inputBytes_congr hsize (inputBytes_spec hinput).1 hbytes

theorem Effect.apply_withOut (s : State) (m : Memory) (e : Effect) :
    e.apply { s with outBuf := m } =
      { e.apply s with outBuf := (e.apply { s with outBuf := m }).outBuf } := by
  cases e <;> rfl

theorem Effect.stored_withOut (s : State) (m : Memory) (e : Effect) :
    e.stored { s with outBuf := m } = e.stored s := by
  cases e <;> rfl

/-- Settles O47: the effect stores the same bytes at the same indices whatever OUT held. -/
theorem outIsNeverRead : Obligations.OutIsNeverRead := by
  intro s t m i hform hform' hsize h
  obtain ⟨e, hfits, rfl, heffect⟩ := exec_hasEffect h
  have hinside := hfits.inside
  refine ⟨_, heffect _ ⟨rfl, rfl, rfl, rfl, hsize, fun _ => rfl⟩, Effect.apply_withOut s m e,
    fun a => ?_⟩
  rw [Effect.apply_outBuf, Effect.apply_outBuf, Effect.stored_withOut]
  by_cases ha : a < (e.stored s).length
  · left
    rw [readByte_writeRun_zero hform' (by omega) ha, readByte_writeRun_zero hform hinside ha]
  · right
    have hout : a < 0 ∨ 0 + (e.stored s).length ≤ a := by omega
    exact ⟨readByte_writeRun_outside _ _ _ hout, readByte_writeRun_outside _ _ _ hout⟩

/-- Settles O48: the four registers are no operands, and only a success writes RESULT. -/
theorem earlierReportsDoNotMatter : Obligations.EarlierReportsDoNotMatter := by
  intro s t i c st r info h
  obtain ⟨e, -, rfl, heffect⟩ := exec_hasEffect h
  have hsame : SameOperands i s { s with cmd := c, result := r, status := st, errInfo := info } :=
    ⟨rfl, rfl, rfl, rfl, rfl, fun _ => rfl⟩
  refine (heffect _ hsame).trans ?_
  cases e with
  | wrote bytes result => rfl
  | stripped arg result => rfl
  | raised kind info cap =>
    have herr : ((Effect.raised kind info cap).apply s).status.value ≠ 0 :=
      statusWord_errorCode_ne_zero kind
    rw [if_neg herr]
    rfl

/-! ## Where a command stops -/

/-- Settles O39: every command reads ARG first, and ENC and DEC read OUT_CAP next. -/
theorem unwrittenOperandsFault : Obligations.UnwrittenOperandsFault := by
  intro s i
  have harg (h : s.arg.written = false) : exec i s = .fault .unwrittenRead := by
    cases i <;> simp only [exec, execEncsz, execEnc, execDecsz, execDec, execFwd, execRev,
      withOperand_unwritten h]
  refine ⟨harg, fun hwrites hcap => ?_⟩
  cases hwritten : s.arg.written with
  | false => exact harg hwritten
  | true =>
    cases i with
    | enc pad => rw [exec, execEnc, withOperand_written hwritten, withOperand_unwritten hcap]
    | dec pad => rw [exec, execDec, withOperand_written hwritten, withOperand_unwritten hcap]
    | encsz pad => cases hwrites
    | decsz pad => cases hwrites
    | fwd => cases hwrites
    | rev => cases hwrites

/-- Settles O41: with the earlier checks passed, the width check refuses. -/
theorem lengthsBeyondTheWidthAreRefused : Obligations.LengthsBeyondTheWidthAreRefused := by
  intro s pad hin
  obtain ⟨input, hinput⟩ := inputBytes_exists hin.inForm hin.inBound
  refine ⟨fun hout hwide => ?_, fun hwide => ?_, fun hout hwide => ?_⟩
  · rw [exec, execEnc, withOperand_written hin.argWritten, withOperand_written hout.capWritten,
      withInput_some hinput, withCapacity_fits hout.outBound, withWidth_refused hwide]
  · rw [exec, execDecsz, withOperand_written hin.argWritten, withInput_some hinput,
      withWidth_refused hwide]
  · rw [exec, execDec, withOperand_written hin.argWritten, withOperand_written hout.capWritten,
      withInput_some hinput, withCapacity_fits hout.outBound, withWidth_refused hwide]

end Sys2Proof.Machine
end

section
/-! PROOFS. ENC, DECSZ and DEC on ready operands: each byte of OUT in the spec's numbers (41_encode.md
R74, R75, R76; 42_decode.md R84, R85, R87), the sizes (41_encode.md R72; 42_decode.md R81), the errors
(60_exceptions.md R95, R98), and DEC after DECSZ (70_reset_and_hazards.md R113). -/

namespace Sys2Proof.Machine

open Sys2Proof.Spec

/-! ## The encoder -/

/-- Settles O22: the laws of the size, one for each clause. -/
theorem encodedSizeClosedForms : Obligations.EncodedSizeClosedForms := by
  intro n
  have hsize := encSize_eq_encodedLength n
  refine ⟨?_, hsize false, encSize_padded n, hsize true, ?_, fun pad => ⟨rfl, encSize_le n pad⟩⟩
  · rw [encSize_unpadded, tailSymbols_eq (Nat.mod_lt n (by decide))]
    omega
  · rw [hsize, encodedLength_true_mod]

section
variable {m : Memory} {n : Nat} {input : List Byte}

theorem getD_toNat_eq_byteBelow (h : inputBytes m n = some input) (i : Nat) :
    (input.getD i 0).toNat = byteBelow m n i := by
  obtain ⟨-, hlen, hread⟩ := inputBytes_spec h
  rw [List.getD_eq_getElem?_getD, byteBelow]
  split
  · next hi => rw [byteAt, hread i hi]
  · next hi =>
    rw [List.getElem?_eq_none (by omega)]
    rfl

theorem groupAcc_toNat (h : inputBytes m n = some input) (g : Nat) :
    (groupAcc input g).toNat = groupValue m n g := by
  simp only [groupAcc, packBytes_toNat, getD_toNat_eq_byteBelow h, groupValue]

/-- The encoding, byte by byte, is the spec's (41_encode.md R74, R75). -/
theorem encodeBytes_eq_encodedByte (h : inputBytes m n = some input) {pad : Bool} {k : Nat}
    (hk : k < encodedLength pad n) :
    ((encodeBytes fwdImage pad input)[k]?).map BitVec.toNat = some (encodedByte m n k) := by
  obtain ⟨-, hlen, -⟩ := inputBytes_spec h
  rw [encodedByte, dataLength_eq_dataSymbols, ← hlen]
  rw [← encSize_eq_encodedLength, ← hlen] at hk
  split
  · next hdata =>
    rw [encodeBytes_symbol fwdImage pad input hdata, Option.map_some, fwdLookup_fwdImage,
      codeSlice_toNat, groupAcc_toNat h, hlen, symbolOf]
  · next hdata =>
    rw [encodeBytes_pad fwdImage pad input (Nat.not_lt.mp hdata) hk]
    rfl

end

/-- Settles O24: ENC stores the encoding from index 0, and no byte past it. -/
theorem encWritesTheEncoding : Obligations.EncWritesTheEncoding := by
  intro s pad hin hout hroms hwidth hroom
  obtain ⟨input, hinput⟩ := inputBytes_exists hin.inForm hin.inBound
  have hsize := encSize_eq_encodedLength s.arg.value pad
  have hlen : (encodeBytes s.fwdRom pad input).length = encodedLength pad s.arg.value := by
    rw [encodeBytes_length, (inputBytes_spec hinput).2.1, hsize]
  have hexec := execEnc_runs hin.argWritten hout.capWritten hinput hout.outBound hwidth
    (hsize.trans_le hroom)
  have hfit := hlen.trans_le (hroom.trans hout.outBound)
  rw [hsize] at hexec
  refine ⟨_, hexec, rfl, memSize_writeRun _ _ _, fun k hk => ?_, fun a ha => ?_⟩
  · rw [complete_outBuf, State.setResult_outBuf, State.storeOut_outBuf,
      readByte_writeRun_zero hout.outForm hfit (hlen ▸ hk), hroms.1,
      encodeBytes_eq_encodedByte hinput hk]
  · exact readByte_writeRun_outside _ _ _ (.inr (by omega))

/-- Settles O26: with every earlier check passed, the size check fails. -/
theorem encIntoUndersizedOutFaults : Obligations.EncIntoUndersizedOutFaults := by
  intro s pad hin hout hwidth hsmall
  obtain ⟨input, hinput⟩ := inputBytes_exists hin.inForm hin.inBound
  rw [exec, execEnc, withOperand_written hin.argWritten, withOperand_written hout.capWritten,
    withInput_some hinput, withCapacity_fits hout.outBound, withWidth_fits hwidth,
    encSize_eq_encodedLength, if_pos hsmall]

/-! ## DECSZ -/

/-- Settles O27: the run that ends the input decides what is stripped. -/
theorem decszWritesSizeAndStrippedLength : Obligations.DecszWritesSizeAndStrippedLength := by
  intro s pad run hin hwidth hacc hrun
  obtain ⟨input, hinput⟩ := inputBytes_exists hin.inForm hin.inBound
  obtain ⟨-, hlen, -⟩ := inputBytes_spec hinput
  have hstrip := strippedLength_eq_strippedLen (endsInRun_of_padRunIs hinput hrun)
  rw [hlen] at hstrip
  rw [acceptsLength_iff_lengthAccepted, ← hlen] at hacc
  rw [exec, execDecsz_accepts hin.argWritten hinput hwidth hacc, hstrip]
  rfl

/-- Settles O28: DecLen rejects the length. -/
theorem decszRejectsOtherLengths : Obligations.DecszRejectsOtherLengths := by
  intro s pad hin hwidth hrej
  obtain ⟨input, hinput⟩ := inputBytes_exists hin.inForm hin.inBound
  obtain ⟨-, hlen, -⟩ := inputBytes_spec hinput
  rw [acceptsLength_iff_lengthAccepted, ← hlen] at hrej
  rw [exec, execDecsz_rejects hin.argWritten hinput hwidth hrej, hlen]
  rfl

/-! ## DEC -/

/-- Settles O31: DecLen rejects the length before any other error. -/
theorem decRejectsOtherLengths : Obligations.DecRejectsOtherLengths :=
  fun _ _ hin hout hwidth hrej => exec_dec_rejectedLength hin hout hwidth hrej

theorem decOutcome_tooSmall {pad : Bool} {s : State} {input : List Byte}
    (hacc : lengthAccepted pad input.length)
    (hsmall : s.outCap.value < 5 * strippedLength input / 8) :
    decOutcome pad input s =
      raiseInDec .outputTooSmall (5 * strippedLength input / 8) s.outCap.value s := by
  simp only [decOutcome, decLen_accepted hacc, if_pos hsmall]

/-- Settles O32: the size is compared with OUT_CAP before any symbol is looked up. -/
theorem decRejectsTooSmallOutput : Obligations.DecRejectsTooSmallOutput := by
  intro s pad run hin hout hwidth hacc hrun hsmall
  obtain ⟨input, hinput, hlen, hexec⟩ := exec_dec_of_ready pad hin hout hwidth
  have hstrip := strippedLength_eq_strippedLen (endsInRun_of_padRunIs hinput hrun)
  rw [hlen] at hstrip
  rw [acceptsLength_iff_lengthAccepted, ← hlen] at hacc
  rw [decOutcome_tooSmall hacc (hstrip ▸ hsmall), hstrip] at hexec
  exact ⟨_, hexec, raiseInDec_decErrorState _ _⟩

section
variable {m : Memory} {n : Nat} {bs : List Byte} {cs : List CodePoint}

theorem getD_toNat_eq_codeBelow (h : inputBytes m n = some bs)
    (hcodes : symbolValues revImage 0 bs = .codes cs) (i : Nat) :
    (cs.getD i 0).toNat = codeBelow m n i := by
  obtain ⟨-, hlen, hread⟩ := inputBytes_spec h
  obtain ⟨hcount, hvalue⟩ := symbolValues_codes hcodes
  rw [List.getD_eq_getElem?_getD, codeBelow]
  split
  · next hi =>
    have hb := List.getElem?_eq_getElem (hlen.symm ▸ hi)
    rw [byteAt, hread i hi, hb, Option.getD_some, ← revLookup_revImage, ← hvalue i _ hb]
    exact (Option.getD_map BitVec.toNat (0 : CodePoint) _).symm
  · next hi =>
    rw [List.getElem?_eq_none (by omega)]
    rfl

theorem codesAcc_toNat (h : inputBytes m n = some bs)
    (hcodes : symbolValues revImage 0 bs = .codes cs) (g : Nat) :
    (codesAcc cs g).toNat = codesValue m n g := by
  simp only [codesAcc, packCodes_toNat, getD_toNat_eq_codeBelow h hcodes, codesValue]

/-- The decoding, byte by byte, is the spec's (42_decode.md R84, R85). -/
theorem decodeCodes_eq_decodedByte (h : inputBytes m n = some bs)
    (hcodes : symbolValues revImage 0 bs = .codes cs) {k : Nat} (hk : k < (decodeCodes cs).length) :
    ((decodeCodes cs)[k]?).map BitVec.toNat = some (decodedByte m n k) := by
  rw [decodeCodes_length] at hk
  rw [decodeCodes_byte cs hk, Option.map_some, byteSlice_toNat, codesAcc_toNat h hcodes,
    decodedByte]

end

/-- What DEC did when it reports success (42_decode.md R87). -/
theorem execDec_success {pad : Bool} {s t : State} (h : execDec pad s = .next t)
    (hok : t.status.value = 0) :
    ∃ input cs, inputBytes s.inBuf s.arg.value = some input ∧ lengthAccepted pad input.length ∧
      symbolValues s.revRom 0 (input.take (strippedLength input)) = .codes cs ∧
      t = complete ((s.storeOut (decodeCodes cs)).setResult (5 * strippedLength input / 8)) := by
  obtain ⟨input, -, -, hinput, -, -, rfl⟩ := execDec_next h
  obtain ⟨-, e⟩ | ⟨-, -, e⟩ | ⟨_, -, -, -, e⟩ | ⟨cs, hacc, -, hcodes, e⟩ :=
    decOutcome_cases pad input s
  · exact absurd (e ▸ hok) (statusWord_errorCode_ne_zero _)
  · exact absurd (e ▸ hok) (statusWord_errorCode_ne_zero _)
  · exact absurd (e ▸ hok) (statusWord_errorCode_ne_zero _)
  · exact ⟨input, cs, hinput, hacc, hcodes, e⟩

/-- Settles O30: DEC stores the decoding of its code points from index 0, and no byte past it. -/
theorem decWritesTheDecoding : Obligations.DecWritesTheDecoding := by
  intro s pad run hin hout hroms hwidth hacc hrun hroom hall
  obtain ⟨_, hexec⟩ := exec_dec_allSymbols hin hout hroms hwidth hacc hrun hroom hall
  obtain ⟨input, cs, hinput, hacc, hcodes, e⟩ := execDec_success hexec rfl
  obtain ⟨-, hlen, -⟩ := inputBytes_spec hinput
  have hstrip := strippedLength_eq_strippedLen (endsInRun_of_padRunIs hinput hrun)
  have hle := strippedLength_le input
  have hexamined := inputBytes_take hinput (hle.trans_eq hlen)
  have hsize := decodeCodes_length_of_accepted hacc hcodes
  rw [hroms.2] at hcodes
  rw [hlen] at hstrip
  rw [e] at hexec
  rw [hstrip] at hexec hexamined hcodes hsize
  have hbound := hout.outBound
  refine ⟨_, hexec, rfl, memSize_writeRun _ _ _, fun k hk => ?_, fun a ha => ?_⟩
  · rw [complete_outBuf, State.setResult_outBuf, State.storeOut_outBuf,
      readByte_writeRun_zero hout.outForm (by omega) (by omega),
      decodeCodes_eq_decodedByte hexamined hcodes (by omega)]
  · exact readByte_writeRun_outside _ _ _ (.inr (by omega))

/-! ## DEC after DECSZ -/

/-- Counted padding leaves no multiple of 8. -/
theorem strippedLength_eq_length {bs : List Byte} (h : strippedLength bs % 8 = 0) :
    strippedLength bs = bs.length := by
  obtain ⟨hcount, -⟩ := padCount_bounds bs
  simp only [List.mem_cons, List.not_mem_nil, or_false] at hcount
  unfold strippedLength at h ⊢
  split at h
  · rw [if_pos ‹_›]
    omega
  · rw [if_neg ‹_›]

theorem length_take_strippedLength (bs : List Byte) :
    (bs.take (strippedLength bs)).length = strippedLength bs := by
  rw [List.length_take, Nat.min_eq_left (strippedLength_le bs)]

/-- A stripped input has nothing left to strip. -/
theorem strippedLength_take (bs : List Byte) :
    strippedLength (bs.take (strippedLength bs)) = strippedLength bs := by
  by_cases h : strippedLength bs % 8 = 0
  · rw [strippedLength_eq_length h, List.take_length, strippedLength_eq_length h]
  · have hlen := length_take_strippedLength bs
    rw [strippedLength, hlen, if_neg h]

/-- Unpadded DEC has the same effect on the stripped input (70_reset_and_hazards.md R113). -/
theorem decEffect_take {bs : List Byte} (h : lengthAccepted false bs.length)
    (rom : Vector Byte 256) (cap : Nat) :
    decEffect false (bs.take (strippedLength bs)) rom cap = decEffect false bs rom cap := by
  have hacc : lengthAccepted false (bs.take (strippedLength bs)).length := by
    have hmod := strippedLength_mod h
    simp only [List.mem_cons, List.not_mem_nil, or_false] at hmod
    simp only [length_take_strippedLength, lengthAccepted, Bool.false_eq_true, if_false]
    omega
  simp only [decEffect, decLen_accepted hacc, decLen_accepted h, strippedLength_take,
    List.take_take, Nat.min_self]

/-- After a DECSZ that succeeds, DEC examines the stripped input. -/
theorem execDec_after_decsz {pad : Bool} {s t : State} (hcap : s.outCap.written = true)
    (hbound : s.outCap.value ≤ memSize s.outBuf) (h : execDecsz pad s = .next t)
    (hok : t.status.value = 0) :
    ∃ input, s.arg.written = true ∧ inputBytes s.inBuf s.arg.value = some input ∧
      5 * s.arg.value < 2 ^ Config.wLen ∧ lengthAccepted pad input.length ∧
      t = complete ((s.setArg (strippedLength input)).setResult (5 * strippedLength input / 8)) ∧
      execDec pad t = .next (decOutcome pad (input.take (strippedLength input)) t) := by
  obtain ⟨input, harg, hinput, hwidth, ⟨-, rfl⟩ | ⟨hacc, rfl⟩⟩ := execDecsz_next h
  · exact absurd hok (statusWord_errorCode_ne_zero _)
  · obtain ⟨-, hlen, -⟩ := inputBytes_spec hinput
    have hle := (strippedLength_le input).trans_eq hlen
    refine ⟨input, harg, hinput, hwidth, hlen.symm ▸ hacc, rfl, ?_⟩
    refine execDec_runs rfl hcap (inputBytes_take hinput hle) hbound ?_
    exact (Nat.mul_le_mul_left 5 hle).trans_lt hwidth

/-- Settles O38: stripping leaves padded DEC a length it rejects, and unpadded DEC an input of the same
effect. -/
theorem decAfterDecszReadsTheStrippedLength :
    Obligations.DecAfterDecszReadsTheStrippedLength := by
  intro s t hcap hbound
  refine ⟨fun h hok hchanged => ?_, fun h hok => ?_⟩
  · obtain ⟨input, -, hinput, -, -, rfl, hdec⟩ := execDec_after_decsz hcap hbound h hok
    obtain ⟨-, hlen, -⟩ := inputBytes_spec hinput
    have hrej : ¬ lengthAccepted true (input.take (strippedLength input)).length := by
      rw [length_take_strippedLength]
      exact fun hmod => hchanged ((strippedLength_eq_length hmod).trans hlen)
    refine ⟨_, hdec, ?_⟩
    rw [decOutcome_rejected hrej]
    exact ⟨rfl, length_take_strippedLength input⟩
  · obtain ⟨input, harg, hinput, hwidth, hacc, rfl, hdec⟩ :=
      execDec_after_decsz hcap hbound h hok
    refine ⟨_, _, execDec_runs harg hcap hinput hbound hwidth, hdec, ?_⟩
    rw [decOutcome_eq_apply, decOutcome_eq_apply, decEffect_take hacc]
    simp only [complete_revRom, complete_outCap, State.setResult_revRom, State.setResult_outCap,
      State.setArg_revRom, State.setArg_outCap]
    cases decEffect false input s.revRom s.outCap.value with
    | wrote bytes result => exact ⟨rfl, rfl, rfl, fun _ => rfl⟩
    | stripped arg result => exact ⟨rfl, rfl, rfl, fun _ => rfl⟩
    | raised kind info cap =>
      exact ⟨rfl, rfl, rfl, fun hok => absurd hok (statusWord_errorCode_ne_zero kind)⟩

end Sys2Proof.Machine
end

section
/-! PROOFS. The legal command words: the encoder inverts the decoder in both directions (30_encoding.md
R56, R57, R60). -/

namespace Sys2Proof

theorem decode_encode (i : Instr) : decode (encode i) = .legal i := by
  cases i with
  | encsz pad | enc pad | decsz pad | dec pad => cases pad <;> rfl
  | fwd | rev => rfl

/-- Settles O1: the words of 30_encoding.md R60, one for each command and value of PAD. -/
theorem decodeOfEncodeGivesTheInstr : Obligations.DecodeOfEncodeGivesTheInstr :=
  fun i _ => decode_encode i

/-- A word is the word of its fields (30_encoding.md R56). -/
theorem wordOf_fieldsOf (w : Byte) : wordOf (fieldsOf w) = w := by
  apply BitVec.eq_of_toNat_eq
  rw [wordOf, Machine.toNat_append_add, Machine.toNat_append_add, fieldsOf_rsv_toNat,
    fieldsOf_op_toNat, fieldsOf_pad, BitVec.toNat_ofBool]
  have hbit : (decide (w.toNat / 8 % 2 = 1)).toNat = w.toNat / 8 % 2 := by
    obtain h | h := Nat.mod_two_eq_zero_or_one (w.toNat / 8) <;> rw [h] <;> rfl
  rw [hbit]
  omega

/-- Fields that decode to a command are the fields of that command. -/
theorem encodeFields_of_decodeFields {f : CmdFields} {i : Instr} (h : decodeFields f = .legal i) :
    encodeFields i = f := by
  obtain ⟨rsv, pad, op⟩ := f
  unfold decodeFields at h
  split at h
  · cases h
  · next hrsv =>
    obtain rfl : rsv = 0 := not_not.mp hrsv
    dsimp only at h
    split at h
    · cases h
      rfl
    · cases h
      rfl
    · cases h
      rfl
    · cases h
      rfl
    · cases pad <;> cases h
      rfl
    · cases pad <;> cases h
      rfl
    · cases h

theorem encode_of_decode {w : Byte} {i : Instr} (h : decode w = .legal i) : encode i = w := by
  rw [encode, encodeFields_of_decodeFields h, wordOf_fieldsOf]

/-- Settles O2: each listed word is the word of its command, and a word that decodes to a command is
this command's word. -/
theorem theTenLegalWords : Obligations.TheTenLegalWords := by
  refine ⟨rfl, rfl, rfl, rfl, rfl, rfl, rfl, rfl, rfl, rfl, fun w ⟨i, hi⟩ => ?_⟩
  rw [← encode_of_decode hi]
  cases i with
  | encsz pad | enc pad | decsz pad | dec pad => cases pad <;> decide
  | fwd | rev => decide

end Sys2Proof
end

section
/-! PROOFS. The host's lines: issuing a word, register transactions, branches, and the buffers it
supplies and takes (30_encoding.md R64, R65, R66; 70_reset_and_hazards.md R109, R112). -/

namespace Sys2Proof.Machine

/-! ## Issuing a word -/

/-- A write to CMD stores the word and issues it (10_state.md R19). -/
theorem step_of_issue {s : State} {v : HostVal} (hline : nextLine s = some (.write 0 v))
    (hv : hostValue v s < 256) :
    step s = runWord (BitVec.ofNat 8 (hostValue v s))
      (s.advance.setCmd (BitVec.ofNat 8 (hostValue v s))) := by
  rw [step_of_nextLine hline]
  exact if_pos hv

/-- Settles O4: the issued word is legal, so its command runs. -/
theorem stepRunsTheIssuedCommand : Obligations.StepRunsTheIssuedCommand := by
  intro s v i hline hv hlegal
  rw [step_of_issue hline hv, runWord, hlegal]
  rfl

/-- Settles O5: the issued word is illegal, so it is the information value of the error. -/
theorem illegalWordRaisesIllegalCommand : Obligations.IllegalWordRaisesIllegalCommand := by
  intro s v why hline hv hillegal
  rw [step_of_issue hline hv, runWord, hillegal]
  dsimp only
  rw [BitVec.toNat_ofNat, Nat.mod_eq_of_lt hv]
  rfl

/-- Settles O6: the host's program has no line at its position. -/
theorem idleBlockDoesNothing : Obligations.IdleBlockDoesNothing := by
  intro s hend
  rw [step, nextLine, List.getElem?_eq_none hend]

/-! ## Register transactions -/

/-- Settles O7: the value passes the width check of its register. -/
theorem hostSetsArgAndOutCap : Obligations.HostSetsArgAndOutCap := by
  intro s v hv
  have hfits := (fitsLen_iff _).mpr hv
  refine ⟨fun hline => ?_, fun hline => ?_⟩ <;> rw [step_of_nextLine hline]
  · exact if_pos hfits
  · exact if_pos hfits

/-- Settles O9: the value fails the width check of its register. -/
theorem valueWiderThanTheRegisterIsRefused : Obligations.ValueWiderThanTheRegisterIsRefused := by
  refine fun s v => ⟨fun hline hwide => ?_, fun index hindex hline hwide => ?_⟩ <;>
    rw [step_of_nextLine hline]
  · exact if_neg (Nat.not_lt.mpr hwide)
  · have hfails := mt (fitsLen_iff _).mp (Nat.not_lt.mpr hwide)
    obtain rfl | rfl := hindex
    · exact if_neg hfails
    · exact if_neg hfails

/-- Settles O10: each of the six indices delivers its own register, by the written flag. -/
theorem hostReadGivesTheRegister : Obligations.HostReadGivesTheRegister := by
  intro s index written value hreg hline
  have hread : hostRead index s.advance = deliver written value s.advance := by
    obtain ⟨rfl, rfl, rfl⟩ | ⟨rfl, rfl, rfl⟩ | ⟨rfl, rfl, rfl⟩ | ⟨rfl, rfl, rfl⟩ | ⟨rfl, rfl, rfl⟩ |
      ⟨rfl, rfl, rfl⟩ := hreg <;> rfl
  rw [step_of_nextLine hline, performLine, hread, deliver]
  refine ⟨fun hw => ?_, fun hw => ?_⟩ <;> rw [hw] <;> rfl

/-! ## Branches -/

/-- STATUS.ERR as a number: the low four bits (10_state.md R23). -/
theorem statusErr_bne_zero (v : Byte) : (statusErr v != 0) = decide (v.toNat % 16 ≠ 0) := by
  have h : statusErr v = 0 ↔ v.toNat % 16 = 0 := by
    rw [← BitVec.toNat_inj, statusErr, BitVec.extractLsb'_toNat, Nat.shiftRight_zero]
    rfl
  rw [Bool.eq_iff_iff, bne_iff_ne, decide_eq_true_eq]
  exact h.not

theorem branchOnErr_of_written {s : State} (hw : s.status.written = true) (taken : Bool)
    (target : Nat) :
    branchOnErr taken target s = .next (s.goTo
      (if decide (s.status.value.toNat % 16 ≠ 0) == taken then target
        else s.host.position + 1)) := by
  rw [branchOnErr, if_pos hw, statusErr_bne_zero]
  by_cases h : (decide (s.status.value.toNat % 16 ≠ 0) == taken) = true
  · rw [if_pos h, if_pos h]
  · rw [if_neg h, if_neg h]
    rfl

theorem branchOnErr_of_unwritten {s : State} (hw : s.status.written = false) (taken : Bool)
    (target : Nat) : branchOnErr taken target s = .fault .unwrittenRead := by
  rw [branchOnErr, hw]
  rfl

/-- Settles O11: the branch tests the low four bits of a written STATUS. -/
theorem hostBranchesOnStatusErr : Obligations.HostBranchesOnStatusErr := by
  refine fun s target => ⟨fun hline hw => ?_, fun hline hw => ?_, fun hline hw => ?_⟩
  · rw [step_of_nextLine hline, performLine, branchOnErr_of_written hw]
    simp only [beq_true, decide_eq_true_eq]
    rfl
  · rw [step_of_nextLine hline, performLine, branchOnErr_of_written hw]
    simp only [beq_false, Bool.not_eq_true', decide_eq_false_iff_not, not_not]
    rfl
  · obtain hline | hline := hline <;> rw [step_of_nextLine hline] <;>
      exact branchOnErr_of_unwritten hw _ target

/-! ## Buffers -/

/-- Settles O12: IN becomes the buffer of the bytes. -/
theorem loadInSuppliesTheBytes : Obligations.LoadInSuppliesTheBytes := by
  intro s bytes hline
  exact ⟨s.advance.supplyIn bytes, step_of_nextLine hline, rfl, bufferOf_wf bytes,
    memSize_bufferOf bytes, readByte_bufferOf bytes⟩

/-- Settles O13: the first bytes of OUT, when OUT has them, become the buffer IN. -/
theorem loadInFromOutCopies : Obligations.LoadInFromOutCopies := by
  refine fun s v hline hform => ⟨fun hfit => ?_, fun hover => ?_⟩
  · obtain ⟨bytes, hbytes, hcopy⟩ := withOutPrefix_exists hform hfit s.advance.supplyIn
    obtain ⟨-, hlen, hread⟩ := inputBytes_spec hbytes
    refine ⟨_, (step_of_nextLine hline).trans hcopy, rfl, bufferOf_wf bytes,
      (memSize_bufferOf bytes).trans hlen, fun i hi => ?_⟩
    exact (readByte_bufferOf bytes i).trans (hread i hi).symm
  · exact (step_of_nextLine hline).trans (withOutPrefix_overrun hover _)

/-- Settles O53: the host takes the first bytes of OUT, when OUT has them. -/
theorem hostTakesTheBytesOfOut : Obligations.HostTakesTheBytesOfOut := by
  refine fun s v hline hform => ⟨fun hfit => ?_, fun hover => ?_⟩
  · obtain ⟨bytes, hbytes, htake⟩ := withOutPrefix_exists hform hfit s.advance.setTaken
    obtain ⟨-, hlen, hread⟩ := inputBytes_spec hbytes
    exact ⟨bytes, (step_of_nextLine hline).trans htake, hlen, fun i hi => (hread i hi).symm⟩
  · exact (step_of_nextLine hline).trans (withOutPrefix_overrun hover _)

/-- Settles O14: OUT becomes the buffer of the bytes given, or of as many free bytes as asked for. -/
theorem hostSuppliesOut : Obligations.HostSuppliesOut := by
  refine fun s => ⟨fun bytes hline => ?_, fun v hline => ?_⟩
  · exact ⟨s.advance.supplyOut bytes, step_of_nextLine hline, rfl, bufferOf_wf bytes,
      memSize_bufferOf bytes, readByte_bufferOf bytes⟩
  · refine ⟨s.advance.allocOut (hostValue v s), step_of_nextLine hline, rfl, bufferOf_wf _, ?_⟩
    exact (memSize_bufferOf _).trans (freeBytes_length _ _)

end Sys2Proof.Machine
end
